-- ==== Sys2Proof/Config.lean ====
section
/-! DEFINITION. The fixed geometry of the translator block (00_scope.md R7), the one behaviour
parameter `INVALIDATE_ON_UNBIND` (R22), and the values the model names where the host, not the
spec, supplies one. -/

namespace Sys2Proof.Config

/-- R7: width of the page offset. -/
abbrev OFFSET_BITS : Nat := 10

/-- R7: bytes per logical page and per frame. -/
abbrev PAGE_SIZE : Nat := 1024

/-- R7: width of the logical page number. -/
abbrev PAGE_BITS : Nat := 10

/-- R7: number of logical pages. -/
abbrev N_PAGES : Nat := 1024

/-- R7: width of the virtual address input. -/
abbrev VA_IN_BITS : Nat := 32

/-- R7: bits of the virtual address that take part in translation. -/
abbrev VA_USED_BITS : Nat := 20

/-- R7: size of the virtual address space and of the backing store. -/
abbrev VA_SPACE : Nat := 1048576

/-- R7: number of physical frames. -/
abbrev N_FRAMES : Nat := 256

/-- R7: width of a frame number. -/
abbrev FRAME_BITS : Nat := 8

/-- R7: size of the physical memory in bytes. -/
abbrev PM_SIZE : Nat := 262144

/-- R7: width of a physical address. -/
abbrev PA_BITS : Nat := 18

/-- R7: number of TLB slots. -/
abbrev TLB_SIZE : Nat := 16

/-- R7: width of the TLB insertion pointer. -/
abbrev TLB_PTR_BITS : Nat := 4

/-- R7: width of each statistics counter and of the address ordinal. -/
abbrev CNT_BITS : Nat := 32

/-- R7: width of each LRU timestamp. -/
abbrev TS_BITS : Nat := 32

/-- R35: width of the error status. -/
abbrev ERR_BITS : Nat := 2

/-- R81: width of the command field. -/
abbrev CMD_BITS : Nat := 2

/-- R81: width of the operand field. -/
abbrev OPERAND_BITS : Nat := 32

/-- R81: width of a request word. -/
abbrev REQ_BITS : Nat := 34

/-- R8: the relations between the parameters that the rules rely on. -/
def relationsHold : Prop :=
  PAGE_SIZE = 2 ^ OFFSET_BITS ∧ N_PAGES = 2 ^ PAGE_BITS ∧ VA_USED_BITS = PAGE_BITS + OFFSET_BITS ∧
    N_FRAMES = 2 ^ FRAME_BITS ∧ PA_BITS = FRAME_BITS + OFFSET_BITS ∧ N_FRAMES < N_PAGES ∧
    TLB_SIZE = 2 ^ TLB_PTR_BITS

/-- R7, R22: whether unbinding a page also invalidates its TLB slot. This hardware takes 0,
"faithfully reproduce the bug". Every operation that reads it takes it as an argument, so that the
variant with value 1 can be spoken of too. -/
def INVALIDATE_ON_UNBIND : Bool := false

/-- R31, R230: what a byte of physical memory holds after reset. It is also what an address that a
memory list does not name reads as. -/
def UNLISTED_BYTE : BitVec 8 := 0#8

/-- The level of the policy input in `State.reset`: 0, that is FIFO.
DESIGN CHOICE (log 1): the host drives this input, and the spec gives it no value. -/
def RESET_POLICY_INPUT : BitVec 1 := 0#1

/-- The listed bytes of the backing image in `State.reset`: none, so that every byte of it is 0.
DESIGN CHOICE (log 3): the host supplies the image, and the spec gives it no contents. -/
def RESET_IMAGE : List (Nat × BitVec 8) := []

end Sys2Proof.Config
end

