-- ==== Sys2Proof/Word.lean ====
section
/-! DEFINITION. The word types of the block: each value the spec gives a width, at that width
(00_scope.md R7, R9). -/

namespace Sys2Proof

open Config

/-- A byte of physical memory or of the backing store (R53, R55). -/
abbrev Byte := BitVec 8

/-- A virtual address as the host gives it, all 32 bits (R51). -/
abbrev Va := BitVec VA_IN_BITS

/-- A logical page number (R84). -/
abbrev Vpn := BitVec PAGE_BITS

/-- A byte offset within a page (R84). -/
abbrev Offset := BitVec OFFSET_BITS

/-- A physical frame number (R52). -/
abbrev FrameNo := BitVec FRAME_BITS

/-- A physical address (R52). -/
abbrev PhysAddr := BitVec PA_BITS

/-- An address of the backing store (R55). -/
abbrev BackAddr := BitVec VA_USED_BITS

/-- The TLB insertion pointer (R26). -/
abbrev TlbIndex := BitVec TLB_PTR_BITS

/-- A statistics counter, or the ordinal of a request (R32, R172). -/
abbrev Count := BitVec CNT_BITS

/-- An LRU timestamp (R29). -/
abbrev Stamp := BitVec TS_BITS

/-- The error status as the host reads it (R35). -/
abbrev ErrBits := BitVec ERR_BITS

/-- The command field of a request word (R81). -/
abbrev Command := BitVec CMD_BITS

/-- The operand field of a request word (R81). -/
abbrev Operand := BitVec OPERAND_BITS

/-- A request word (R81). -/
abbrev ReqWord := BitVec REQ_BITS

/-- The largest value of a counter, 2^32 - 1 (R204). -/
def Count.max : Count := BitVec.allOnes CNT_BITS

/-- Every logical page number in ascending order: the order of the page-table scans (R123, R146).
Irreducible, so that no proof unrolls it by accident; the kernel evaluates it all the same. -/
@[irreducible] def allVpns : List Vpn := (List.range N_PAGES).map (BitVec.ofNat PAGE_BITS)

/-- Every offset of a page in ascending order: the order of a page load (R149).
Irreducible, as `allVpns` is. -/
@[irreducible] def allOffsets : List Offset := (List.range PAGE_SIZE).map (BitVec.ofNat OFFSET_BITS)

end Sys2Proof
end

