-- ==== Sys2Proof/Syntax.lean ====
section
/-! DEFINITION. The requests of the block, one constructor per row of the opcode table, and the
lines of a trace (30_encoding.md R90). -/

namespace Sys2Proof

/-- A request of the block (R86). The operand is kept whole, its ignored bits too (R82, R83). -/
inductive Instr where
  /-- TRANSLATE, `CMD = 00`, with the virtual address as operand (R82). -/
  | translate (va : Va)
  /-- READ_STATS, `CMD = 01`. Its operand is ignored, and every value of it is legal (R83). -/
  | readStats (operand : Operand)
deriving DecidableEq, Repr

/-- A line of a trace, the assembler syntax of the block (R90). -/
inductive TraceLine where
  /-- `<int>`: the source's own form, the pseudo-instruction for `TRANSLATE <int>`. -/
  | bare (n : Int)
  /-- `TRANSLATE <int>`. -/
  | translate (n : Int)
  /-- `READ_STATS`. -/
  | readStats
deriving DecidableEq, Repr

end Sys2Proof
end

