-- ==== Sys2Proof/WellFormed.lean ====
section
/-! DEFINITION. Which requests, request words and trace lines are well formed. -/

namespace Sys2Proof

open Config

/-- Every request is well formed: every value of IGN, VPN and OFF is legal (R82), and so is every
operand of READ_STATS (R83). -/
def Instr.wellFormed : Instr → Bool
  | .translate _ => true
  | .readStats _ => true

/-- The canonical form of a request: READ_STATS has operand 0 (R83). A request that is not canonical
is legal all the same. -/
def Instr.canonical : Instr → Bool
  | .translate _ => true
  | .readStats operand => operand == 0

/-- Whether a number is a request word: it fits in 34 bits (R81). -/
def isRequestWord (w : Nat) : Bool := decide (w < 2 ^ REQ_BITS)

/-- The range of an integer of a trace, -2^31 to 2^31 - 1 (R90). -/
def inTraceRange (n : Int) : Bool := decide (-2147483648 ≤ n) && decide (n ≤ 2147483647)

/-- A trace line is well formed when its integer is in range (R90). -/
def TraceLine.wellFormed : TraceLine → Bool
  | .bare n => inTraceRange n
  | .translate n => inTraceRange n
  | .readStats => true

end Sys2Proof
end

