-- ==== Sys2Proof/Decode.lean ====
section
/-! DEFINITION. From request words to requests and back (30_encoding.md R81 to R87), and the request
words of trace lines (R90). -/

namespace Sys2Proof

open Config

/-- What the decoder makes of a request word: a request, or a reserved command, with the command
named (R86, R87). -/
inductive Decoded where
  /-- The word is this request. -/
  | instr (i : Instr)
  /-- The word's command is reserved: it has no request, and raises RESERVED_COMMAND (R203). -/
  | reserved (cmd : Command)
deriving DecidableEq, Repr

/-- `CMD`, bits 33:32 of a request word (R81). -/
def commandField (w : ReqWord) : Command := w.extractLsb' OPERAND_BITS CMD_BITS

/-- `OPERAND`, bits 31:0 of a request word (R81). -/
def operandField (w : ReqWord) : Operand := w.extractLsb' 0 OPERAND_BITS

/-- The command of TRANSLATE (R82). -/
def cmdTranslate : Command := 0b00#2

/-- The command of READ_STATS (R83). -/
def cmdReadStats : Command := 0b01#2

/-- The decoder, total over the 2^34 request words (R86). "A decoder tells the command from CMD
alone" (R81). -/
def decode (w : ReqWord) : Decoded :=
  if commandField w = cmdTranslate then .instr (.translate (operandField w))
  else if commandField w = cmdReadStats then .instr (.readStats (operandField w))
  else .reserved (commandField w)

/-- The command of a request (R82, R83). -/
def Instr.command : Instr → Command
  | .translate _ => cmdTranslate
  | .readStats _ => cmdReadStats

/-- The operand of a request (R82, R83). -/
def Instr.operand : Instr → Operand
  | .translate va => va
  | .readStats operand => operand

/-- The request word of a request: the command above the operand (R81). -/
def encode (i : Instr) : ReqWord := i.command ++ i.operand

/-- The request a trace line stands for (R90): the integer becomes its 32-bit two's-complement pattern.
R90 gives this for a well-formed line only (`TraceLine.wellFormed`). DESIGN CHOICE (log 11): an integer
out of range, which the spec leaves to the host (D18), is taken modulo 2^32. -/
def TraceLine.instr : TraceLine → Instr
  | .bare n => .translate (BitVec.ofInt VA_IN_BITS n)
  | .translate n => .translate (BitVec.ofInt VA_IN_BITS n)
  | .readStats => .readStats 0

/-- The request word of a trace line (R90). -/
def TraceLine.word (l : TraceLine) : ReqWord := encode l.instr

/-- A word of the opcode table, numbered as the table numbers it, as a request word: its low `nbits`
bits, and of these the 34 that a request word has (log 6). -/
def tableWord (nbits w : Nat) : ReqWord := BitVec.ofNat REQ_BITS (w % 2 ^ nbits)

/-- The request that the decoder reads from a word of the opcode table; none where the command is
reserved. -/
def decodeTableWord (nbits w : Nat) : Option Instr :=
  match decode (tableWord nbits w) with
  | .instr i => some i
  | .reserved _ => none

end Sys2Proof
end

