-- ==== Sys2Proof/Machine/State.lean ====
section
/-! DEFINITION. The state of the machine as plain data: the block's elements (10_state.md R21 to
R35), and around them the interfaces of 30_encoding.md R80. -/

namespace Sys2Proof.Machine

open Config

/-- A memory: the listed addresses and their bytes, in rising order of address; an address that is
not listed reads as `UNLISTED_BYTE`, and no listed byte equals it. -/
abbrev Memory := List Host.Cell

/-- `POLICY`, the eviction policy (R21). -/
inductive Policy where
  /-- First-in-first-out, value 0. -/
  | fifo
  /-- Least-recently-used, value 1. -/
  | lru
deriving DecidableEq, Repr

/-- The policy that a level of the policy input selects (R21): 0 FIFO, 1 LRU. -/
def Policy.ofInput (b : BitVec 1) : Policy := if b = 0 then .fifo else .lru

/-- A TLB slot (R23). -/
structure TlbSlot where
  /-- `V`: the slot holds a mapping written since reset. -/
  valid : Bool
  /-- `VPN`: the logical page of the mapping. -/
  vpn : Vpn
  /-- `FRAME`: the physical frame of the mapping. -/
  frame : FrameNo
deriving DecidableEq, Repr

/-- A page-table entry (R28). -/
structure PtEntry where
  /-- `V`: the page is resident. -/
  valid : Bool
  /-- `FRAME`: the frame that holds it, meaningful only when `valid`. -/
  frame : FrameNo
deriving DecidableEq, Repr

/-- `ERR`, the error status (R35): the first block fault raised since reset. -/
inductive ErrCode where
  /-- 0 NONE: no block fault since reset. -/
  | none
  /-- 1 RESERVED_COMMAND. -/
  | reservedCommand
  /-- 2 COUNTER_OVERFLOW. -/
  | counterOverflow
  /-- 3 NO_FRAME_OWNER. -/
  | noFrameOwner
deriving DecidableEq, Repr

/-- The block faults (R200). Raising one is a next state of the machine (R201), not a stop. -/
inductive BlockFault where
  /-- A request word whose command is reserved (R203). -/
  | reservedCommand
  /-- A TRANSLATE while `TOTAL` is at its largest value (R204). -/
  | counterOverflow
  /-- An eviction that found no page to evict (R205). -/
  | noFrameOwner
deriving DecidableEq, Repr

/-- A response of the block (R88). -/
inductive Response where
  /-- `XLATE`: a TRANSLATE that completed. -/
  | xlate (va : Va) (pa : PhysAddr) (data : Byte)
  /-- `STATS`: the answer of READ_STATS. -/
  | stats (total faults hits : Count) (err : ErrBits)
  /-- `ERROR`: a TRANSLATE refused or aborted, or a reserved command. -/
  | error (err : ErrBits)
deriving DecidableEq, Repr

/-- A move of the host toward the block (R80, R236). What R236 assumes the host never does has no move:
a change of `BS_IMAGE` between a reset and the end of the run, a second request before the first is
answered, and a reordered or dropped trace line (log 2). -/
inductive HostMove where
  /-- Send this request word. -/
  | request (w : ReqWord)
  /-- Assert reset between requests. -/
  | reset
  /-- Begin a new run on another backing image: with the last run over, bind this image and assert reset
  (R236, R237). R56 fixes the image only from a reset to the end of the run. DEDUCED, with a DESIGN CHOICE
  of form (log 10): the binding and the reset are one move. -/
  | resetWithImage (image : Memory)
  /-- Send this request word, and assert reset while the request is performed (R232). -/
  | resetDuring (w : ReqWord)
  /-- Drive the policy input to this level. -/
  | drivePolicy (b : BitVec 1)
deriving DecidableEq, Repr

/-- The block's architectural state: "exactly the elements of rules R21 to R35 and nothing else"
(R20). -/
structure Block where
  /-- `POLICY` (R21). -/
  policy : Policy
  /-- `TLB` (R23). -/
  tlb : Vector TlbSlot TLB_SIZE
  /-- `TLB_PTR` (R26). -/
  tlbPtr : TlbIndex
  /-- `PT` (R27). -/
  pt : Vector PtEntry N_PAGES
  /-- `TS` (R29). -/
  ts : Vector Stamp N_PAGES
  /-- `ALLOC_PTR` (R30). -/
  allocPtr : FrameNo
  /-- `FULL` (R30). -/
  full : Bool
  /-- `PM` (R31). -/
  pm : Memory
  /-- `TOTAL` (R32). -/
  total : Count
  /-- `FAULTS` (R33). -/
  faults : Count
  /-- `HITS` (R34). -/
  hits : Count
  /-- `ERR` (R35). -/
  err : ErrCode
deriving DecidableEq, Repr

/-- The block right after a reset that sampled policy `p` (R230). -/
def Block.reset (p : Policy) : Block where
  policy := p
  tlb := Vector.replicate TLB_SIZE ⟨false, 0, 0⟩
  tlbPtr := 0
  pt := Vector.replicate N_PAGES ⟨false, 0⟩
  ts := Vector.replicate N_PAGES 0
  allocPtr := 0
  full := false
  pm := []
  total := 0
  faults := 0
  hits := 0
  err := .none

/-- The whole machine: the block, the backing store behind its read port, and the other interfaces of
R80. -/
structure State where
  /-- The block's elements. -/
  block : Block
  /-- `BS_IMAGE`, the backing image, of 2^20 bytes (R55). It is fixed from a reset to the end of the run
  (R56): only the reset that begins another run may bind another one (log 10). -/
  backing : Memory
  /-- The level of the policy input, which the host drives (R80, R231). -/
  policyInput : BitVec 1
  /-- Whether a first reset has happened. Before it the block's elements hold no value (R37), and no
  step reads them. -/
  wasReset : Bool
  /-- The host's moves that the machine has not taken yet, the next one first. -/
  inbox : List HostMove
  /-- The responses delivered to the host, the earliest first (R89). -/
  outbox : List Response
deriving DecidableEq, Repr

/-- The machine right after a reset with this level of the policy input and this backing image
(R230, R237), the host having sent nothing yet (R233). -/
def State.boot (input : BitVec 1) (image : Memory) : State where
  block := Block.reset (Policy.ofInput input)
  backing := image
  policyInput := input
  wasReset := true
  inbox := []
  outbox := []

/-- The machine right after reset (R230). The policy input and the image are the host's to choose;
the values here are the model's (logs 1 and 3). -/
def State.reset : State := State.boot RESET_POLICY_INPUT RESET_IMAGE

/-- The reasons for which the machine stops with a fault: there is none. A page fault is a branch of
TRANSLATE (R207), and a block fault ends one request and leaves the machine running (R201, R202), so
each is a next state. -/
inductive Fault where
deriving DecidableEq, Repr

/-- The reasons for which the model gives a step no meaning. -/
inductive Refusal where
  /-- Raised by `exec` for an instruction that has no meaning yet. No arm raises it. Safe: the model
  stops where the hardware goes on. -/
  | notModelled (mnemonic : String)
  /-- Raised by the fetch of a request that arrives before the first reset: it "has no meaning", and
  "a model must refuse it" (R234). Safe: nothing can be proved of the run after it. -/
  | beforeReset
  /-- Raised by the fetch of a reset that binds a list which is not the canonical form of an image of
  2^20 bytes: such an image "is a host configuration error and never reaches the block" (D15, R208).
  Safe: nothing can be proved of the run after it. -/
  | badImage
deriving DecidableEq, Repr

end Sys2Proof.Machine
end

