-- ==== Sys2Proof/Machine/Flags.lean ====
section
/-! DEFINITION. The block has no flags (10_state.md R20). What stands for them is the error status and
the statistics counters: their codes and how a request changes them. -/

namespace Sys2Proof.Machine

open Config

/-- The 2-bit code of an error status (R35, R200). -/
def ErrCode.bits : ErrCode → ErrBits
  | .none => 0
  | .reservedCommand => 1
  | .counterOverflow => 2
  | .noFrameOwner => 3

/-- The error status that records a block fault (R200). -/
def BlockFault.code : BlockFault → ErrCode
  | .reservedCommand => .reservedCommand
  | .counterOverflow => .counterOverflow
  | .noFrameOwner => .noFrameOwner

/-- The error status after a block fault: it takes the fault's code if it was NONE, and keeps the
first fault otherwise (R201). -/
def recordFault (err : ErrCode) (fault : BlockFault) : ErrCode :=
  if err = .none then fault.code else err

/-- The ordinal of the request being performed (R172). -/
def ordinalOf (b : Block) : Count := b.total + 1

/-- Count the request being performed: `TOTAL <- ord` (R170, R172). -/
def countRequest (b : Block) : Block := { b with total := ordinalOf b }

/-- Count a TLB hit (R173). -/
def countHit (b : Block) : Block := { b with hits := b.hits + 1 }

/-- Count a page fault (R175). -/
def countFault (b : Block) : Block := { b with faults := b.faults + 1 }

end Sys2Proof.Machine
end

