-- ==== Sys2Proof/Machine/Operands.lean ====
section
/-! DEFINITION. The operand assembly of TRANSLATE (30_encoding.md R84), the addresses it forms
(20_memory.md R52, R55), and the signed readings the host prints (00_scope.md R11). -/

namespace Sys2Proof.Machine

open Config

/-- `OFF = va[9:0]` (R84). -/
def offsetOf (va : Va) : Offset := va.extractLsb' 0 OFFSET_BITS

/-- `VPN = va[19:10]` (R84). -/
def vpnOf (va : Va) : Vpn := va.extractLsb' OFFSET_BITS PAGE_BITS

/-- `va[19:0]`, the bits that take part in translation (R51): the address of the byte in the backing
store. -/
def usedBits (va : Va) : BackAddr := va.extractLsb' 0 VA_USED_BITS

/-- The physical address `FRAME ++ OFFSET` (R52). -/
def physAddr (f : FrameNo) (off : Offset) : PhysAddr := f ++ off

/-- The backing-store address of byte `off` of page `vpn` (R55, R149). -/
def backAddr (vpn : Vpn) (off : Offset) : BackAddr := vpn ++ off

/-- The signed reading of a byte, which the host prints (R11, R91). -/
def signedByte (b : Byte) : Int := b.toInt

/-- The signed reading of a virtual address, which the host prints (R11, R91). -/
def signedVa (va : Va) : Int := va.toInt

end Sys2Proof.Machine
end

