-- ==== Sys2Proof/Machine/Ops.lean ====
section
/-! DEFINITION. The named operations over memory and over the block's elements, raising a block fault
(60_exceptions.md R201), and the reset that alone ends it (70_reset_and_hazards.md R230). -/

namespace Sys2Proof.Machine

open Config

/-- The byte of a memory at an address. -/
def Memory.read : Memory → Nat → Byte
  | [], _ => UNLISTED_BYTE
  | (a, v) :: m, x => if a = x then v else Memory.read m x

/-- Put a byte in front of a memory, unless it is what an unlisted address reads as. -/
def Memory.put (x : Nat) (v : Byte) (m : Memory) : Memory :=
  if v = UNLISTED_BYTE then m else (x, v) :: m

/-- Write one byte of a memory, keeping its canonical form. -/
def Memory.write : Memory → Nat → Byte → Memory
  | [], x, v => Memory.put x v []
  | (a, w) :: m, x, v =>
    if x < a then Memory.put x v ((a, w) :: m)
    else if x = a then Memory.put x v m
    else (a, w) :: Memory.write m x v

/-- The canonical form of a memory from address `lo` on: addresses strictly rising, at least `lo` and
below `size`, and no listed byte equal to what an unlisted address reads as. -/
def Memory.wfFrom (size : Nat) : Nat → Memory → Bool
  | _, [] => true
  | lo, (a, v) :: m =>
    decide (lo ≤ a) && decide (a < size) && decide (v ≠ UNLISTED_BYTE) && Memory.wfFrom size (a + 1) m

/-- The canonical form of a memory of `size` bytes. -/
def Memory.wf (size : Nat) (m : Memory) : Bool := Memory.wfFrom size 0 m

/-- `MemRead(pa, 1)`: the byte `PM[pa]` (R53). -/
def memRead (b : Block) (pa : PhysAddr) : Byte := Memory.read b.pm pa.toNat

/-- `MemWrite(pa, 1, v)`: `PM[pa] <- v` (R54). -/
def memWrite (b : Block) (pa : PhysAddr) (v : Byte) : Block :=
  { b with pm := Memory.write b.pm pa.toNat v }

/-- `BackingRead(a, 1)`: the byte `BS_IMAGE[a]` (R55). -/
def backingRead (image : Memory) (a : BackAddr) : Byte := Memory.read image a.toNat

/-- `PT[p]` (R27): every page number is a legal index. -/
def Block.ptEntry (b : Block) (p : Vpn) : PtEntry := b.pt[p.toNat]'p.isLt

/-- `PT[p] <- e`. -/
def Block.setPtEntry (b : Block) (p : Vpn) (e : PtEntry) : Block :=
  { b with pt := b.pt.set p.toNat e p.isLt }

/-- `TS[p]` (R29). -/
def Block.stamp (b : Block) (p : Vpn) : Stamp := b.ts[p.toNat]'p.isLt

/-- `TS[p] <- t`. -/
def Block.setStamp (b : Block) (p : Vpn) (t : Stamp) : Block :=
  { b with ts := b.ts.set p.toNat t p.isLt }

/-- `TLB[i]` (R23). -/
def Block.slot (b : Block) (i : TlbIndex) : TlbSlot := b.tlb[i.toNat]'i.isLt

/-- `TLB[i] <- e`. -/
def Block.setSlot (b : Block) (i : TlbIndex) (e : TlbSlot) : Block :=
  { b with tlb := b.tlb.set i.toNat e i.isLt }

/-- `raise BlockFault(code)`, for a request that began in block state `b` (R201): every write of the
request is undone, `ERR` keeps the first fault, and the response is ERROR. -/
def raiseBlockFault (fault : BlockFault) (b : Block) : Block × Response :=
  ({ b with err := recordFault b.err fault }, .error (recordFault b.err fault).bits)

/-- `respond`: the request ends with this block state, and this response goes to the host (R89). -/
def State.answer (s : State) (r : Block × Response) : State :=
  { s with block := r.1, outbox := s.outbox ++ [r.2] }

/-- The way out of a block fault: reset puts every element of the block to its reset value and samples
the policy input (R230, R231). What the host holds stays: the image, the input's level, the responses
it has received. -/
def State.resetBlock (s : State) : State :=
  { s with block := Block.reset (Policy.ofInput s.policyInput), wasReset := true }

end Sys2Proof.Machine
end

