-- ==== Sys2Proof/Machine/ReadStats.lean ====
section
/-! DEFINITION. The request READ_STATS (44_pipeline.md R180). -/

namespace Sys2Proof.Machine

/-- READ_STATS on the block (R180): the counters and the error status, and no state written. It is
served even while `ERR != 0` (R202). -/
def readStats (b : Block) : Block × Response :=
  (b, .stats b.total b.faults b.hits b.err.bits)

/-- The meaning of READ_STATS (R180). Its operand is ignored (R83). -/
def execReadStats (_operand : Operand) (s : State) : Host.Outcome State Fault Refusal :=
  .next (s.answer (readStats s.block))

end Sys2Proof.Machine
end

