-- ==== Sys2Proof/Machine/Tlb.lean ====
section
/-! DEFINITION. The translation cache: lookup, insert and invalidate (41_tlb.md R101, R104, R106).
`POLICY` has no effect on any of them (R100). -/

namespace Sys2Proof.Machine

open Config

/-- Whether a slot answers a lookup of `vpn`: a slot with `V = 0` never matches (R101). -/
def TlbSlot.holds (e : TlbSlot) (vpn : Vpn) : Bool := e.valid && e.vpn == vpn

/-- `TlbLookup(vpn)` (R101): the frame of the first slot, in ascending order, that holds `vpn`; none
where there is no such slot. -/
def tlbLookup (b : Block) (vpn : Vpn) : Option FrameNo :=
  (b.tlb.toList.find? fun e => e.holds vpn).map TlbSlot.frame

/-- `TlbInsert(vpn, frame)` (R104): write the slot that `TLB_PTR` names, whatever it holds, and advance
the pointer, which wraps from 15 to 0. -/
def tlbInsert (b : Block) (vpn : Vpn) (frame : FrameNo) : Block :=
  { b.setSlot b.tlbPtr ⟨true, vpn, frame⟩ with tlbPtr := b.tlbPtr + 1 }

/-- `TlbInvalidate(vpn)` (R106): clear `V` in every slot that holds `vpn`. -/
def tlbInvalidate (b : Block) (vpn : Vpn) : Block :=
  { b with tlb := b.tlb.map fun e => if e.holds vpn then { e with valid := false } else e }

end Sys2Proof.Machine
end

