-- ==== Sys2Proof/Machine/PageTable.lean ====
section
/-! DEFINITION. The page table: lookup, reverse lookup, bind and unbind (42_page_table.md R121, R123,
R125, R126). -/

namespace Sys2Proof.Machine

open Config

/-- `PtLookup(vpn)` (R121): the frame of a resident page, none for an unmapped one. -/
def ptLookup (b : Block) (vpn : Vpn) : Option FrameNo :=
  if (b.ptEntry vpn).valid then some (b.ptEntry vpn).frame else none

/-- `PtReverseLookup(f)` (R123): the first page, in ascending order, that is resident in frame `f`. -/
def ptReverseLookup (b : Block) (f : FrameNo) : Option Vpn :=
  allVpns.find? fun p => (b.ptEntry p).valid && (b.ptEntry p).frame == f

/-- `PtBind(vpn, f)` (R125). -/
def ptBind (b : Block) (vpn : Vpn) (f : FrameNo) : Block := b.setPtEntry vpn ⟨true, f⟩

/-- `PtUnbind(vpn)` (R126): clear `V`, leave `FRAME`, and invalidate the page's TLB slot only where
`INVALIDATE_ON_UNBIND` is 1. -/
def ptUnbind (invalidate : Bool) (b : Block) (vpn : Vpn) : Block :=
  let unbound := b.setPtEntry vpn { b.ptEntry vpn with valid := false }
  if invalidate then tlbInvalidate unbound vpn else unbound

end Sys2Proof.Machine
end

