-- ==== Sys2Proof/Machine/FrameAllocator.lean ====
section
/-! DEFINITION. The frame allocator, the two eviction policies and the page load
(43_frame_allocator.md R141, R142, R145, R146, R149). -/

namespace Sys2Proof.Machine

open Config

/-- `AdvanceCursor()` (R142): `FULL` is set when the cursor reaches the number of frames, and
`ALLOC_PTR` goes on, modulo that number. -/
def advanceCursor (b : Block) : Block :=
  { b with
    full := if b.allocPtr = BitVec.allOnes FRAME_BITS then true else b.full
    allocPtr := b.allocPtr + 1 }

/-- `FifoEvict()` (R145): the frame at the cursor; its owner, found by reverse lookup, is unbound. -/
def fifoEvict (invalidate : Bool) (b : Block) : Except BlockFault (Block × FrameNo) :=
  match ptReverseLookup (advanceCursor b) b.allocPtr with
  | none => .error .noFrameOwner
  | some owner => .ok (ptUnbind invalidate (advanceCursor b) owner, b.allocPtr)

/-- One turn of the scan of `LruEvict` (R146): page `p` becomes the best so far if it is resident and
its timestamp is strictly below the best one's. -/
def lruBetter (b : Block) (best : Option Vpn) (p : Vpn) : Option Vpn :=
  if (b.ptEntry p).valid then
    match best with
    | none => some p
    | some q => if b.stamp p < b.stamp q then some p else best
  else best

/-- The victim of `LruEvict` (R146): the best page after a scan of all pages in ascending order. -/
def lruVictim (b : Block) : Option Vpn := allVpns.foldl (lruBetter b) none

/-- `LruEvict()` (R146): the frame of the resident page with the smallest timestamp, which is
unbound. -/
def lruEvict (invalidate : Bool) (b : Block) : Except BlockFault (Block × FrameNo) :=
  match lruVictim b with
  | none => .error .noFrameOwner
  | some victim =>
    .ok (ptUnbind invalidate (advanceCursor b) victim, (b.ptEntry victim).frame)

/-- `SelectFrame()` (R141): the next never-used frame while there is one, and then the frame of the
policy's victim. -/
def selectFrame (invalidate : Bool) (b : Block) : Except BlockFault (Block × FrameNo) :=
  if b.full then
    match b.policy with
    | .fifo => fifoEvict invalidate b
    | .lru => lruEvict invalidate b
  else .ok (advanceCursor b, b.allocPtr)

/-- One byte move of a page load (R149). -/
def loadByte (image : Memory) (vpn : Vpn) (f : FrameNo) (b : Block) (off : Offset) : Block :=
  memWrite b (physAddr f off) (backingRead image (backAddr vpn off))

/-- `LoadPage(vpn, f)` (R149): the 1024 bytes of the page, each to its place in the frame. The state
written is the physical memory alone. -/
def loadPage (image : Memory) (b : Block) (vpn : Vpn) (f : FrameNo) : Block :=
  { b with pm := (allOffsets.foldl (loadByte image vpn f) b).pm }

end Sys2Proof.Machine
end

