-- ==== Sys2Proof/Machine/Translate.lean ====
section
/-! DEFINITION. The request TRANSLATE (44_pipeline.md R170 to R179). -/

namespace Sys2Proof.Machine

open Config

/-- The outcome of a TRANSLATE (R171). It is internal to the request (R20). -/
inductive XlateOutcome where
  /-- `TlbLookup` hit, with the slot's frame. -/
  | tlbHit (f : FrameNo)
  /-- `TlbLookup` missed and the page is mapped, with the page table's frame. -/
  | tableHit (f : FrameNo)
  /-- Both missed: a page fault. -/
  | pageFault
deriving DecidableEq, Repr

/-- CacheCheck and TableCheck: the outcome that a request for page `vpn` has in a block state (R170,
R171). -/
def outcomeOf (b : Block) (vpn : Vpn) : XlateOutcome :=
  match tlbLookup b vpn with
  | some f => .tlbHit f
  | none =>
    match ptLookup b vpn with
    | some f => .tableHit f
    | none => .pageFault

/-- The states a request goes through (R179). -/
inductive Phase where
  | start | cacheCheck | tableCheck | fault | allocate | evict | load | cacheInsert | done
deriving DecidableEq, Repr

/-- The sequence of states for each outcome, and for a fault by whether the frames are exhausted
(R179). -/
def statePath (full : Bool) : XlateOutcome → List Phase
  | .tlbHit _ => [.start, .cacheCheck, .done]
  | .tableHit _ => [.start, .cacheCheck, .tableCheck, .cacheInsert, .done]
  | .pageFault =>
    [.start, .cacheCheck, .tableCheck, .fault, if full then .evict else .allocate, .load,
      .cacheInsert, .done]

/-- The timestamp update: `TS[vpn] <- ord` under LRU, nothing under FIFO (R176). -/
def touchStamp (b : Block) (vpn : Vpn) (ord : Count) : Block :=
  { b with ts := match b.policy with
      | .fifo => b.ts
      | .lru => (b.setStamp vpn ord).ts }

/-- The fault path (R175): count the fault, select a frame, load the page, bind it, set its
timestamp. -/
def pageIn (invalidate : Bool) (image : Memory) (ord : Count) (vpn : Vpn) (b : Block) :
    Except BlockFault (Block × FrameNo) :=
  match selectFrame invalidate (countFault b) with
  | .error e => .error e
  | .ok (b', f) => .ok (touchStamp (ptBind (loadPage image b' vpn f) vpn f) vpn ord, f)

/-- From CacheCheck to CacheInsert: the block state after, and the frame the outcome resolved (R170,
R178). -/
def resolve (invalidate : Bool) (image : Memory) (ord : Count) (vpn : Vpn) (b : Block) :
    Except BlockFault (Block × FrameNo) :=
  match outcomeOf b vpn with
  | .tlbHit f => .ok (countHit b, f)
  | .tableHit f => .ok (tlbInsert (touchStamp b vpn ord) vpn f, f)
  | .pageFault =>
    match pageIn invalidate image ord vpn b with
    | .error e => .error e
    | .ok (b', f) => .ok (tlbInsert b' vpn f, f)

/-- Done (R177): the physical address, the data byte, and the response. -/
def finishXlate (va : Va) (r : Block × FrameNo) : Block × Response :=
  (r.1, .xlate va (physAddr r.2 (offsetOf va)) (memRead r.1 (physAddr r.2 (offsetOf va))))

/-- TRANSLATE on the block (R170), for either value of `INVALIDATE_ON_UNBIND`: refused while
`ERR != 0` (R202), COUNTER_OVERFLOW while `TOTAL` is at its largest value (R204), and otherwise the
pipeline. A block fault inside it undoes every write of the request (R201). -/
def translate (invalidate : Bool) (image : Memory) (va : Va) (b : Block) : Block × Response :=
  if b.err ≠ .none then (b, .error b.err.bits)
  else if b.total = Count.max then raiseBlockFault .counterOverflow b
  else
    match resolve invalidate image (ordinalOf b) (vpnOf va) (countRequest b) with
    | .error e => raiseBlockFault e b
    | .ok r => finishXlate va r

/-- The meaning of TRANSLATE (R170), on this hardware's value of `INVALIDATE_ON_UNBIND`. -/
def execTranslate (va : Va) (s : State) : Host.Outcome State Fault Refusal :=
  .next (s.answer (translate INVALIDATE_ON_UNBIND s.backing va s.block))

end Sys2Proof.Machine
end

