-- ==== Sys2Proof/Machine/Dispatch.lean ====
section
/-! DEFINITION. One arm per request of the opcode table. -/

namespace Sys2Proof.Machine

def exec (i : Instr) (s : State) : Host.Outcome State Fault Refusal :=
  match i with
  | .translate va => Sys2Proof.Machine.execTranslate va s
  | .readStats operand => Sys2Proof.Machine.execReadStats operand s

end Sys2Proof.Machine
end

