-- ==== Sys2Proof/Machine/Interface.lean ====
section
/-! DEFINITION. The host's moves toward the block (30_encoding.md R80, 70_reset_and_hazards.md R236):
which one is taken next, and what those that are no request do. -/

namespace Sys2Proof.Machine

open Config

/-- What the next move of the host asks of the machine. -/
inductive Fetched where
  /-- The move is done with, and this is the state after it. -/
  | done (s : State)
  /-- A request to perform, in this state. -/
  | run (i : Instr) (s : State)
  /-- The model gives the move no meaning. -/
  | refuse (r : Refusal)
deriving DecidableEq, Repr

/-- A request word that arrives after the first reset, in a state whose inbox it has left: a request to
perform, or a reserved command, which does `raise BlockFault(RESERVED_COMMAND)` and no part of any
request (R203). -/
def acceptWord (w : ReqWord) (s : State) : Fetched :=
  match decode w with
  | .instr i => .run i s
  | .reserved _ => .done (s.answer (raiseBlockFault .reservedCommand s.block))

/-- Take the host's next move. With none the block is idle and holds its state (R217, R233). Before the
first reset a request is refused (R234). A reset during a request discards the request, without a
response (R232). A reset that begins a run on another image binds the image first (R237), and one that
is no image of 2^20 bytes never reaches the block (D15). -/
def fetch (s : State) : Fetched :=
  match s.inbox with
  | [] => .done s
  | .drivePolicy b :: rest => .done { s with inbox := rest, policyInput := b }
  | .reset :: rest => .done (State.resetBlock { s with inbox := rest })
  | .resetWithImage image :: rest =>
    if Memory.wf VA_SPACE image then .done (State.resetBlock { s with inbox := rest, backing := image })
    else .refuse .badImage
  | .resetDuring _ :: rest =>
    if s.wasReset then .done (State.resetBlock { s with inbox := rest })
    else .refuse .beforeReset
  | .request w :: rest =>
    if s.wasReset then acceptWord w { s with inbox := rest } else .refuse .beforeReset

end Sys2Proof.Machine
end

