-- ==== Sys2Proof/Machine/Step.lean ====
section
/-! DEFINITION. One step of the machine: the host's next move, in full (20_memory.md R60, R62). -/

namespace Sys2Proof.Machine

/-- One step: take the host's next move, and perform the request if it is one (R61). -/
def step (s : State) : Host.Outcome State Fault Refusal :=
  match fetch s with
  | .done t => .next t
  | .run i t => exec i t
  | .refuse r => .refused r

/-- `s` with the request whose word is `w`, as the opcode table numbers its bits, as the host's next
move, so that the next step performs it. The block fetches nothing (R233): requests come from the host
(log 2). -/
def State.withFetchWord (s : State) (nbits w : Nat) : State :=
  { s with inbox := .request (tableWord nbits w) :: s.inbox }

end Sys2Proof.Machine
end

