-- ==== Sys2Proof/Safety.lean ====
section
/-! DEFINITION. The terms in which claims about the block are made: residency and ownership, stale
slots, the invariants of 41_tlb.md, 42_page_table.md and 43_frame_allocator.md, runs, and the
end-of-run observation (70_reset_and_hazards.md R235). -/

namespace Sys2Proof.Machine

open Config

/-- Page `p` is resident in frame `f` (glossary: owner of frame `f`). -/
def Block.owns (b : Block) (p : Vpn) (f : FrameNo) : Prop := b.ptEntry p = ⟨true, f⟩

/-- Page `p` is resident (R120). -/
def Block.resident (b : Block) (p : Vpn) : Prop := (b.ptEntry p).valid = true

/-- Frame `f` is a bound frame: some resident page maps to it. -/
def Block.bound (b : Block) (f : FrameNo) : Prop := ∃ p, b.owns p f

/-- A hit on slot `e` would be stale (R108). -/
def Block.stale (b : Block) (e : TlbSlot) : Prop :=
  e.valid = true ∧ ((b.ptEntry e.vpn).valid = false ∨ (b.ptEntry e.vpn).frame ≠ e.frame)

/-- No valid slot is stale: R111 (ii). -/
def Block.coherent (b : Block) : Prop := ∀ i, ¬ b.stale (b.slot i)

/-- The TLB inserts since reset: one for each completed TRANSLATE that was no TLB hit (R105). -/
def Block.inserts (b : Block) : Nat := b.total.toNat - b.hits.toNat

/-- The evictions since reset: each fault after the first `N_FRAMES` evicts (R140, R141). -/
def Block.evictions (b : Block) : Nat := b.faults.toNat - N_FRAMES

/-- The number of resident pages. -/
def Block.residentCount (b : Block) : Nat := allVpns.countP fun p => (b.ptEntry p).valid

/-- What holds of the block between requests, in every state reached from reset, whatever
`INVALIDATE_ON_UNBIND`. -/
structure Block.Inv (image : Memory) (b : Block) : Prop where
  /-- The physical memory has its canonical form. -/
  pmWf : Memory.wf PM_SIZE b.pm = true
  /-- R181: HITS + FAULTS <= TOTAL. -/
  counters : b.hits.toNat + b.faults.toNat ≤ b.total.toNat
  /-- R26, R109: TLB_PTR is the number of inserts modulo 16. -/
  tlbPtr : b.tlbPtr.toNat = b.inserts % TLB_SIZE
  /-- R107: at most one valid slot holds a page. -/
  tlbUnique : ∀ i j, (b.slot i).valid = true → (b.slot j).valid = true →
    (b.slot i).vpn = (b.slot j).vpn → i = j
  /-- R111 (i): a valid slot's frame is bound. -/
  tlbBound : ∀ i, (b.slot i).valid = true → b.bound (b.slot i).frame
  /-- R127: at most one page is resident in a frame. -/
  ownerUnique : ∀ p q f, b.owns p f → b.owns q f → p = q
  /-- R128: the bound frames are those below ALLOC_PTR, and all of them once FULL is set. -/
  boundFrames : ∀ f, b.bound f ↔ b.full = true ∨ f.toNat < b.allocPtr.toNat
  /-- R30, R142: ALLOC_PTR is the number of faults modulo 256. -/
  allocPtr : b.allocPtr.toNat = b.faults.toNat % N_FRAMES
  /-- R30, R142: FULL is set from the 256th fault on. -/
  fullAt : b.full = true ↔ N_FRAMES ≤ b.faults.toNat
  /-- R157: a resident page's frame holds the page's bytes of the backing store. -/
  contents : ∀ p f, b.owns p f → ∀ off,
    memRead b (physAddr f off) = backingRead image (backAddr p off)
  /-- R29: under FIFO every timestamp is 0. -/
  stampsFifo : b.policy = .fifo → ∀ p, b.stamp p = 0
  /-- R147: under LRU a resident page's timestamp is the ordinal of a request so far. -/
  stampsLru : b.policy = .lru → ∀ p, b.resident p →
    1 ≤ (b.stamp p).toNat ∧ (b.stamp p).toNat ≤ b.total.toNat
  /-- R147: under LRU no two resident pages have equal timestamps. -/
  stampsDistinct : b.policy = .lru → ∀ p q, b.resident p → b.resident q →
    b.stamp p = b.stamp q → p = q
  /-- R159: before the first eviction no slot is stale. -/
  coherentBeforeEviction : b.evictions = 0 → b.coherent
  /-- R129, R205: NO_FRAME_OWNER is unreachable. -/
  owned : b.err ≠ .noFrameOwner

/-- R110: with `INVALIDATE_ON_UNBIND = 0`, the valid slots are the first `min(n, 16)`, where `n` is the
number of inserts since reset. -/
def Block.tlbFilled (b : Block) : Prop := ∀ i, (b.slot i).valid = true ↔ i.toNat < b.inserts

/-- The invariant of the machine: the image is a memory of 2^20 bytes in its canonical form, and after
the first reset the block's invariants hold. -/
def State.Inv (s : State) : Prop :=
  Memory.wf VA_SPACE s.backing = true ∧
    (s.wasReset = true → s.block.Inv s.backing ∧ s.block.tlbFilled)

/-- A TRANSLATE is neither refused nor aborted for overflow (R206): no block fault so far, and `TOTAL`
below its largest value. -/
def Block.ready (b : Block) : Prop := b.err = .none ∧ b.total ≠ Count.max

/-- No slot of the TLB holds page `p`: a lookup of it misses (R101). -/
def Block.tlbMisses (b : Block) (p : Vpn) : Prop := ∀ i, (b.slot i).holds p = false

/-- A request for page `p` is a page fault: the TLB misses and the page is unmapped (R171). -/
def Block.faultsOn (b : Block) (p : Vpn) : Prop := b.tlbMisses p ∧ (b.ptEntry p).valid = false

/-- `t` is `s` after a TRANSLATE of `va` whose page was paged into frame `f`, with page `victim` evicted
where there is one (R175, R177, R183): every element of the state, and the response. -/
structure PagedIn (s t : State) (va : Va) (f : FrameNo) (victim : Option Vpn) : Prop where
  /-- POLICY is unchanged. -/
  policy : t.block.policy = s.block.policy
  /-- The slot at TLB_PTR takes the mapping, and the other slots are unchanged (R104, R178). -/
  slots : ∀ i, t.block.slot i = if i = s.block.tlbPtr then ⟨true, vpnOf va, f⟩ else s.block.slot i
  /-- TLB_PTR advances, from 15 to 0. -/
  tlbPtr : t.block.tlbPtr = s.block.tlbPtr + 1
  /-- The page is bound to the frame, the victim unmapped with its FRAME field left, and every other
  entry unchanged (R125, R126). -/
  entries : ∀ p, t.block.ptEntry p =
    if p = vpnOf va then ⟨true, f⟩
    else if some p = victim then ⟨false, (s.block.ptEntry p).frame⟩
    else s.block.ptEntry p
  /-- Under LRU the page's timestamp is the request's ordinal, and no other changes (R176). -/
  stamps : ∀ p, t.block.stamp p =
    if s.block.policy = .lru ∧ p = vpnOf va then s.block.total + 1 else s.block.stamp p
  /-- The cursor advances (R142). -/
  allocPtr : t.block.allocPtr = s.block.allocPtr + 1
  /-- FULL is set when the cursor was at the last frame, and never cleared (R142). -/
  full : t.block.full = (s.block.full || s.block.allocPtr == 255)
  /-- Byte `off` of frame `f` is byte `off` of the page in the backing store (R149). -/
  loaded : ∀ off, memRead t.block (physAddr f off) =
    backingRead s.backing (backAddr (vpnOf va) off)
  /-- Every byte outside frame `f` reads as before. -/
  otherFrames : ∀ g off, g ≠ f → memRead t.block (physAddr g off) = memRead s.block (physAddr g off)
  /-- The canonical form of the physical memory is kept. -/
  pmWf : Memory.wf PM_SIZE t.block.pm = true
  /-- TOTAL grows by 1 (R172). -/
  total : t.block.total = s.block.total + 1
  /-- FAULTS grows by 1 (R175). -/
  faults : t.block.faults = s.block.faults + 1
  /-- HITS is unchanged (R173). -/
  hits : t.block.hits = s.block.hits
  /-- There is no block fault. -/
  err : t.block.err = s.block.err
  /-- The response is XLATE, with the operand echoed, PA in the frame, and the page's byte (R177). -/
  outbox : t.outbox = s.outbox ++ [.xlate va (physAddr f (offsetOf va))
    (backingRead s.backing (backAddr (vpnOf va) (offsetOf va)))]
  /-- What is the host's is unchanged. -/
  others : t = { s with block := t.block, outbox := t.outbox }

/-- `n` steps of the machine. -/
def run : Nat → State → Host.Outcome State Fault Refusal
  | 0, s => .next s
  | n + 1, s =>
    match step s with
    | .next t => run n t
    | .fault r => .fault r
    | .refused r => .refused r

/-- A state reached from reset: after some number of steps from a reset with some level of the policy
input, some backing image and some moves of the host, further resets among them. -/
def Reachable (s : State) : Prop :=
  ∃ input image moves n, Memory.wf VA_SPACE image = true ∧
    run n { State.boot input image with inbox := moves } = .next s

/-- What a request does to the block, and its response: R61's `step(r, s)`, for either value of
`INVALIDATE_ON_UNBIND`. -/
def serve (invalidate : Bool) (image : Memory) (w : ReqWord) (b : Block) : Block × Response :=
  match decode w with
  | .instr (.translate va) => translate invalidate image va b
  | .instr (.readStats _) => readStats b
  | .reserved _ => raiseBlockFault .reservedCommand b

/-- What a sequence of requests does to the block, and their responses in order (R61). -/
def serveAll (invalidate : Bool) (image : Memory) : List ReqWord → Block → Block × List Response
  | [], b => (b, [])
  | w :: ws, b =>
    ((serveAll invalidate image ws (serve invalidate image w b).1).1,
      (serve invalidate image w b).2 ::
        (serveAll invalidate image ws (serve invalidate image w b).1).2)

/-- Whether a request completes with a table hit (R171). -/
def isTableHit (w : ReqWord) (b : Block) : Bool :=
  match decode w with
  | .instr (.translate va) =>
    match outcomeOf b (vpnOf va) with
    | .tableHit _ => decide (b.err = .none) && decide (b.total ≠ Count.max)
    | _ => false
  | _ => false

/-- The table-hit outcomes of a sequence of requests: the source's `table_hits` (R34, R181). -/
def tableHits (invalidate : Bool) (image : Memory) : List ReqWord → Block → Nat
  | [], _ => 0
  | w :: ws, b =>
    (isTableHit w b).toNat + tableHits invalidate image ws (serve invalidate image w b).1

/-- Whether a move of the host asserts reset. -/
def HostMove.isReset : HostMove → Bool
  | .request _ => false
  | .reset => true
  | .resetWithImage _ => true
  | .resetDuring _ => true
  | .drivePolicy _ => false

/-- Whether a response is an `XLATE`. -/
def Response.isXlate : Response → Bool
  | .xlate _ _ _ => true
  | .stats _ _ _ _ => false
  | .error _ => false

/-- Whether a response is a `STATS`. -/
def Response.isStats : Response → Bool
  | .xlate _ _ _ => false
  | .stats _ _ _ _ => true
  | .error _ => false

/-- The `VA` that a response echoes. -/
def Response.va? : Response → Option Va
  | .xlate va _ _ => some va
  | .stats _ _ _ _ => none
  | .error _ => none

/-- The host's moves for a trace (R235, R237): reset, one TRANSLATE for each line in file order, and one
READ_STATS. DESIGN CHOICE (log 11): a line whose integer is not in R90's range is malformed and the host's
to handle (D18, R209); here it is sent as the word `TraceLine.word` gives it. -/
def traceMoves (trace : List Int) : List HostMove :=
  .reset :: (trace.map fun n => .request (TraceLine.bare n).word) ++
    [.request TraceLine.readStats.word]

/-- The end-of-run observation (R235): the sequence of `XLATE` responses, and the final `STATS`. -/
def endOfRun (out : List Response) : List Response × Option Response :=
  (out.filter Response.isXlate, (out.filter Response.isStats).getLast?)

end Sys2Proof.Machine
end

