-- ==== Sys2Proof/Certificates/Slice0/Obligations.lean ====
section
/-! DEFINITION. The statements about the model, for the provers. Each says which rule of the spec it
formalises. -/

open Sys2Proof Sys2Proof.Machine Sys2Proof.Config

/-! ## Encoding -/

/-- R81, R86: the decoder tells the command from bits 33:32 alone, and the map is total over the 2^34
words. -/
def Obligations.DecodeFollowsTheCommandMap : Prop :=
  ∀ w : ReqWord,
    (w.extractLsb' 32 2 = 0b00#2 → decode w = .instr (.translate (w.extractLsb' 0 32))) ∧
    (w.extractLsb' 32 2 = 0b01#2 → decode w = .instr (.readStats (w.extractLsb' 0 32))) ∧
    (w.extractLsb' 32 2 = 0b10#2 → decode w = .reserved 0b10#2) ∧
    (w.extractLsb' 32 2 = 0b11#2 → decode w = .reserved 0b11#2)

/-- From R81 to R83 and R86: decoding an encoded request gives it back, encoding a decoded request gives
the word back, and the reserved words are exactly those that no request encodes to. -/
def Obligations.DecodeAndEncodeAgree : Prop :=
  (∀ i : Instr, i.wellFormed = true → decode (encode i) = .instr i) ∧
  (∀ (w : ReqWord) (i : Instr), decode w = .instr i → encode i = w) ∧
  (∀ w : ReqWord, (∃ c, decode w = .reserved c) ↔ ∀ i : Instr, encode i ≠ w)

/-- Words of 95_test_vectors.md, written out, and what they stand for. -/
def Obligations.WrittenOutWordsDecode : Prop :=
  decode 0x000000405#34 = .instr (.translate 1029) ∧
  decode 0x0FFFFFFFF#34 = .instr (.translate 0xFFFFFFFF#32) ∧
  decode 0x100000000#34 = .instr (.readStats 0) ∧
  decode 0x112345678#34 = .instr (.readStats 0x12345678#32) ∧
  decode 0x200000000#34 = .reserved 2 ∧
  decode 0x3FFFFFFFF#34 = .reserved 3 ∧
  (TraceLine.bare (-1)).word = 0x0FFFFFFFF#34 ∧
  (TraceLine.translate (-1024)).word = 0x0FFFFFC00#34 ∧
  TraceLine.readStats.word = 0x100000000#34

/-- R84: the address decomposition is the source's two masks, whether the shift fills with zeros or with
the sign. -/
def Obligations.AddressDecomposition : Prop :=
  (∀ va : Va,
    (offsetOf va).setWidth 32 = va &&& 1023#32 ∧
    (vpnOf va).setWidth 32 = (va >>> 10) &&& 1023#32 ∧
    (vpnOf va).setWidth 32 = (va.sshiftRight 10) &&& 1023#32) ∧
  vpnOf (BitVec.ofInt 32 (-1)) = 1023 ∧ offsetOf (BitVec.ofInt 32 (-1)) = 1023

/-- R85: the page number and the offset give back the low 20 bits. -/
def Obligations.DecompositionRoundTrip : Prop :=
  ∀ va : Va, ((vpnOf va).setWidth 32 <<< 10) ||| (offsetOf va).setWidth 32 = va &&& 0xFFFFF#32

/-- R51: page `p` covers the addresses `p*1024` to `p*1024 + 1023`, and virtual addresses that differ by a
multiple of 2^20 are translated alike: the same state after, and the same response but for the echoed
operand. -/
def Obligations.AddressesRepeatEveryTwentyBits : Prop :=
  (∀ (p o : Nat), p < 1024 → o < 1024 →
    (vpnOf (BitVec.ofNat 32 (p * 1024 + o))).toNat = p ∧
    (offsetOf (BitVec.ofNat 32 (p * 1024 + o))).toNat = o) ∧
  ∀ (s : State) (va : Va) (k : Int), ∃ t t' r r',
    exec (.translate va) s = .next t ∧
    exec (.translate (va + BitVec.ofInt 32 (k * 1048576))) s = .next t' ∧
    t.outbox = s.outbox ++ [r] ∧ t'.outbox = s.outbox ++ [r'] ∧
    t'.block = t.block ∧
    (∀ e, r = .error e → r' = .error e) ∧
    ∀ pa d, r = .xlate va pa d → r' = .xlate (va + BitVec.ofInt 32 (k * 1048576)) pa d

/-! ## Reset and the host's moves -/

/-- R230: a reset puts every element to its reset value, and nothing but a reset clears ERR or FULL,
empties a TLB slot or changes POLICY. -/
def Obligations.ResetLoadsEveryElementAndAloneClears : Prop :=
  (∀ (s : State) (rest : List HostMove), s.inbox = .reset :: rest → ∃ t,
    step s = .next t ∧
    (t.block.policy = .fifo ↔ s.policyInput = 0) ∧ (t.block.policy = .lru ↔ s.policyInput = 1) ∧
    (∀ i, t.block.slot i = ⟨false, 0, 0⟩) ∧ t.block.tlbPtr = 0 ∧
    (∀ p, t.block.ptEntry p = ⟨false, 0⟩) ∧ (∀ p, t.block.stamp p = 0) ∧
    t.block.allocPtr = 0 ∧ t.block.full = false ∧ (∀ pa, memRead t.block pa = 0) ∧
    t.block.total = 0 ∧ t.block.faults = 0 ∧ t.block.hits = 0 ∧ t.block.err = .none ∧
    t = { s with block := t.block, wasReset := true, inbox := rest }) ∧
  ∀ s t : State, step s = .next t → (∀ m, s.inbox.head? = some m → m.isReset = false) →
    t.block.policy = s.block.policy ∧
    (s.block.err ≠ .none → t.block.err = s.block.err) ∧
    (s.block.full = true → t.block.full = true) ∧
    ∀ i, (s.block.slot i).valid = true → (t.block.slot i).valid = true

/-- R231: a reset samples the policy input, and between resets the block ignores it: with another level
of the input, a step that is neither a reset nor a change of the input does the same. The same holds of
every move that asserts reset, in the model's form of the moves (logs 2, 5 and 10). -/
def Obligations.PolicyInputIsSampledAtResetOnly : Prop :=
  (∀ (s : State) (rest : List HostMove), s.inbox = .reset :: rest → ∃ t,
    step s = .next t ∧ t.block.policy = Policy.ofInput s.policyInput) ∧
  (∀ (s t : State) (m : HostMove) (rest : List HostMove), s.inbox = m :: rest → m.isReset = true →
    step s = .next t → t.block.policy = Policy.ofInput s.policyInput ∧
      t.policyInput = s.policyInput) ∧
  (∀ (s : State) (level : BitVec 1) (rest : List HostMove), s.inbox = .drivePolicy level :: rest →
    step s = .next { s with policyInput := level, inbox := rest }) ∧
  ∀ (s t : State) (level : BitVec 1),
    (∀ m, s.inbox.head? = some m → m.isReset = false ∧ ∀ l, m ≠ .drivePolicy l) →
    step s = .next t → step { s with policyInput := level } = .next { t with policyInput := level }

/-- R232: a reset during a request discards it: no response, and every element at its reset value, as
after a reset between requests. -/
def Obligations.ResetDuringARequestDiscardsIt : Prop :=
  ∀ (s : State) (w : ReqWord) (rest : List HostMove), s.wasReset = true →
    s.inbox = .resetDuring w :: rest → ∃ t,
      step s = .next t ∧ step { s with inbox := .reset :: rest } = .next t ∧
      t.outbox = s.outbox ∧ t.block = Block.reset (Policy.ofInput s.policyInput)

/-- R234: a request before the first reset is refused, only a reset makes the machine accept requests,
with the image the host has bound or with another one it binds (log 10), and what the block's elements
were before it makes no difference after it. -/
def Obligations.RequestBeforeTheFirstResetIsRefused : Prop :=
  (∀ (s : State) (w : ReqWord) (rest : List HostMove), s.wasReset = false →
    s.inbox = .request w :: rest → step s = .refused .beforeReset) ∧
  (∀ s t : State, s.wasReset = false → step s = .next t → t.wasReset = true →
    ∃ rest, s.inbox = .reset :: rest ∨ ∃ image, s.inbox = .resetWithImage image :: rest) ∧
  ∀ (s : State) (b : Block) (m : HostMove) (rest : List HostMove), s.wasReset = false →
    s.inbox = m :: rest → m.isReset = true → step { s with block := b } = step s

/-- From R217 and R233: with no request and no reset the block holds all its state. That there is a step
when the host has sent nothing, and that it leaves the whole state, is the model's reading (log 7): R61
defines a step for requests only. -/
def Obligations.IdleBlockHoldsItsState : Prop :=
  (∀ s : State, s.inbox = [] → step s = .next s) ∧
  ∀ s t : State, (∀ m, s.inbox.head? = some m → ∃ level, m = .drivePolicy level) →
    step s = .next t → t.block = s.block ∧ t.outbox = s.outbox

/-- From R61, R80 and R81: a step whose next move is a request word performs the request it decodes to,
with the move taken. The second clause is the model's choice: that the host's words are the head of
`inbox`, where `withFetchWord` puts one (log 2), and which request word a word of the opcode table is
(log 6). -/
def Obligations.StepPerformsTheDecodedRequest : Prop :=
  (∀ (s : State) (w : ReqWord) (rest : List HostMove) (i : Instr), s.wasReset = true →
    s.inbox = .request w :: rest → decode w = .instr i →
    step s = exec i { s with inbox := rest }) ∧
  ∀ (s : State) (nbits w : Nat) (i : Instr), s.wasReset = true → decodeTableWord nbits w = some i →
    step (s.withFetchWord nbits w) = exec i s

/-- R89: every request ends with exactly one response, no other move gives one, and so the k-th response
is the k-th request's. -/
def Obligations.EveryRequestGetsOneResponse : Prop :=
  (∀ (s : State) (w : ReqWord) (rest : List HostMove), s.wasReset = true →
    s.inbox = .request w :: rest → ∃ t r, step s = .next t ∧ t.outbox = s.outbox ++ [r]) ∧
  (∀ s t : State, (∀ w rest, s.inbox ≠ .request w :: rest) → step s = .next t →
    t.outbox = s.outbox) ∧
  ∀ (ws : List ReqWord) (s : State), s.wasReset = true → s.inbox = ws.map .request → ∃ t out,
    run ws.length s = .next t ∧ t.inbox = [] ∧ t.outbox = s.outbox ++ out ∧
      out.length = ws.length

/-- R61: the state after each request is `step` of it and the state before, and its response is a
function of these and of the fixed image alone: a run is the fold of its requests. -/
def Obligations.RunIsTheFoldOfItsRequests : Prop :=
  ∀ (ws : List ReqWord) (s : State) (rest : List HostMove), s.wasReset = true →
    s.inbox = ws.map .request ++ rest →
    run ws.length s = .next { s with
      block := (serveAll INVALIDATE_ON_UNBIND s.backing ws s.block).1
      outbox := s.outbox ++ (serveAll INVALIDATE_ON_UNBIND s.backing ws s.block).2
      inbox := rest }

/-- R56: the backing image does not change between reset and the end of the run, nor along any run in
which no reset binds another image (log 10): no step changes it but such a reset, which begins a run on the
new image. -/
def Obligations.BackingImageIsFixedDuringARun : Prop :=
  (∀ (n : Nat) (s t : State), (∀ m ∈ s.inbox.take n, ∀ image, m ≠ .resetWithImage image) →
    run n s = .next t → t.backing = s.backing) ∧
  ∀ s t : State, step s = .next t → t.backing ≠ s.backing →
    s.inbox.head? = some (.resetWithImage t.backing) ∧
      t.block = Block.reset (Policy.ofInput s.policyInput)

/-! ## Block faults -/

/-- R203: a reserved command raises RESERVED_COMMAND and does nothing else. -/
def Obligations.ReservedCommandRaisesItsFault : Prop :=
  ∀ (s : State) (w : ReqWord) (rest : List HostMove), s.wasReset = true →
    s.inbox = .request w :: rest →
    (w.extractLsb' 32 2 = 0b10#2 ∨ w.extractLsb' 32 2 = 0b11#2) →
    step s = .next { s with
      inbox := rest
      block := { s.block with
        err := if s.block.err = .none then .reservedCommand else s.block.err }
      outbox := s.outbox ++ [.error (if s.block.err = .none then 1 else s.block.err.bits)] }

/-- R201: raising a block fault undoes every write of the request, records the code only where ERR was
NONE, and answers ERROR with ERR; every request answered by ERROR has changed nothing but ERR; and only a
reset clears ERR. The codes are those of R200. -/
def Obligations.BlockFaultsArePrecise : Prop :=
  (ErrCode.bits .none = 0 ∧ ErrCode.bits (BlockFault.code .reservedCommand) = 1 ∧
    ErrCode.bits (BlockFault.code .counterOverflow) = 2 ∧
    ErrCode.bits (BlockFault.code .noFrameOwner) = 3) ∧
  (∀ (fault : BlockFault) (b : Block), raiseBlockFault fault b =
    ({ b with err := if b.err = .none then fault.code else b.err },
      .error (if b.err = .none then fault.code else b.err).bits)) ∧
  (∀ (s t : State) (w : ReqWord) (rest : List HostMove) (e : ErrBits), s.wasReset = true →
    s.inbox = .request w :: rest → step s = .next t → t.outbox = s.outbox ++ [.error e] →
    t.block = { s.block with err := t.block.err } ∧ t.block.err ≠ .none ∧ e = t.block.err.bits ∧
      (s.block.err ≠ .none → t.block.err = s.block.err)) ∧
  ∀ s t : State, step s = .next t → s.block.err ≠ .none →
    (∀ m, s.inbox.head? = some m → m.isReset = false) → t.block.err = s.block.err

/-- R202: once ERR is set, a TRANSLATE is refused, READ_STATS completes, a reserved command leaves ERR,
and so the block stays as it is along every run without a reset. -/
def Obligations.FaultedBlockRefusesUntilReset : Prop :=
  (∀ (s : State) (va : Va), s.block.err ≠ .none →
    exec (.translate va) s = .next { s with outbox := s.outbox ++ [.error s.block.err.bits] }) ∧
  (∀ (s : State) (x : Operand), s.block.err ≠ .none → exec (.readStats x) s = .next { s with
    outbox := s.outbox ++
      [.stats s.block.total s.block.faults s.block.hits s.block.err.bits] }) ∧
  (∀ (s : State) (w : ReqWord) (rest : List HostMove) (c : Command), s.wasReset = true →
    s.block.err ≠ .none → s.inbox = .request w :: rest → decode w = .reserved c →
    step s = .next { s with inbox := rest, outbox := s.outbox ++ [.error s.block.err.bits] }) ∧
  ∀ (n : Nat) (s : State), s.wasReset = true → s.block.err ≠ .none →
    (∀ m ∈ s.inbox.take n, m.isReset = false) → ∃ t out,
      run n s = .next t ∧ t.block = s.block ∧ t.outbox = s.outbox ++ out ∧
      ∀ r ∈ out, r = .error s.block.err.bits ∨
        r = .stats s.block.total s.block.faults s.block.hits s.block.err.bits

/-- R204: a TRANSLATE that finds ERR = 0 and TOTAL = 2^32 - 1 raises COUNTER_OVERFLOW before it does
anything else, so at most 2^32 - 1 TRANSLATEs complete between resets. -/
def Obligations.CounterOverflowStopsTranslate : Prop :=
  (∀ (s : State) (va : Va), s.block.err = .none → s.block.total = 0xFFFFFFFF#32 →
    exec (.translate va) s = .next { s with
      block := { s.block with err := .counterOverflow }
      outbox := s.outbox ++ [.error 2] }) ∧
  ∀ (image : Memory) (p : Policy) (ws : List ReqWord),
    (serveAll INVALIDATE_ON_UNBIND image ws (Block.reset p)).2.countP Response.isXlate ≤ 4294967295

/-- R205: an eviction without a victim raises NO_FRAME_OWNER, under FIFO when no page owns the cursor's
frame and under LRU when no page is resident; no state reached from reset has that fault. -/
def Obligations.NoFrameOwnerIsUnreachable : Prop :=
  (∀ (s : State) (va : Va), s.block.ready → s.block.faultsOn (vpnOf va) → s.block.full = true →
    ((s.block.policy = .fifo ∧ ∀ p, ¬ s.block.owns p s.block.allocPtr) ∨
      (s.block.policy = .lru ∧ ∀ p, ¬ s.block.resident p)) →
    exec (.translate va) s = .next { s with
      block := { s.block with err := .noFrameOwner }
      outbox := s.outbox ++ [.error 3] }) ∧
  ∀ s : State, Reachable s → s.block.err ≠ .noFrameOwner

/-- R206: within one request the conditions are tested in this order: a reserved command, READ_STATS, a
refused TRANSLATE, overflow, and then a TRANSLATE that proceeds, which can only meet NO_FRAME_OWNER, in
the Evict step of a fault. -/
def Obligations.PriorityWithinOneRequest : Prop :=
  ∀ (s : State) (w : ReqWord) (rest : List HostMove), s.wasReset = true →
    s.inbox = .request w :: rest → ∃ t r, step s = .next t ∧ t.outbox = s.outbox ++ [r] ∧
    (w.extractLsb' 32 2 = 0b10#2 ∨ w.extractLsb' 32 2 = 0b11#2 →
      r = .error t.block.err.bits ∧
      t.block = { s.block with
        err := if s.block.err = .none then .reservedCommand else s.block.err }) ∧
    (w.extractLsb' 32 2 = 0b01#2 →
      r = .stats s.block.total s.block.faults s.block.hits s.block.err.bits ∧ t.block = s.block) ∧
    (w.extractLsb' 32 2 = 0b00#2 → s.block.err ≠ .none →
      r = .error s.block.err.bits ∧ t.block = s.block) ∧
    (w.extractLsb' 32 2 = 0b00#2 → s.block.err = .none → s.block.total = 0xFFFFFFFF#32 →
      r = .error 2 ∧ t.block = { s.block with err := .counterOverflow }) ∧
    (w.extractLsb' 32 2 = 0b00#2 → s.block.err = .none → s.block.total ≠ 0xFFFFFFFF#32 →
      (t.block.err = .none ∧ ∃ pa d, r = .xlate (w.extractLsb' 0 32) pa d) ∨
      (s.block.full = true ∧ s.block.faultsOn (vpnOf (w.extractLsb' 0 32)) ∧
        r = .error 3 ∧ t.block = { s.block with err := .noFrameOwner }))

/-! ## READ_STATS -/

/-- R180: READ_STATS answers the counters and ERR, whatever its operand and whatever ERR, and writes no
state; right after a reset it answers zeros. -/
def Obligations.ReadStatsAnswersTheCounters : Prop :=
  (∀ (s : State) (x : Operand), exec (.readStats x) s = .next { s with
    outbox := s.outbox ++
      [.stats s.block.total s.block.faults s.block.hits s.block.err.bits] }) ∧
  ∀ (s : State) (rest : List HostMove) (x : Operand), s.inbox = .reset :: rest → ∃ t u,
    step s = .next t ∧ exec (.readStats x) t = .next u ∧ u.outbox = s.outbox ++ [.stats 0 0 0 0]

/-! ## TRANSLATE, outcome by outcome -/

/-- R174, with R101 and R177: a TLB hit, on the lowest slot that holds the page, writes only TOTAL and
HITS, and answers the slot's frame and the byte there, stale or not. -/
def Obligations.TlbHitWritesOnlyTotalAndHits : Prop :=
  ∀ (s : State) (va : Va) (i : TlbIndex), s.block.ready →
    (s.block.slot i).valid = true → (s.block.slot i).vpn = vpnOf va →
    (∀ j, j.toNat < i.toNat → ¬ ((s.block.slot j).valid = true ∧ (s.block.slot j).vpn = vpnOf va)) →
    exec (.translate va) s = .next { s with
      block := { s.block with total := s.block.total + 1, hits := s.block.hits + 1 }
      outbox := s.outbox ++ [.xlate va (physAddr (s.block.slot i).frame (offsetOf va))
        (memRead s.block (physAddr (s.block.slot i).frame (offsetOf va)))] }

/-- From R104, R170, R176 and R177: a table hit counts itself, refreshes the page's timestamp under LRU,
inserts the mapping into the TLB, and answers the page table's frame and the byte there. -/
def Obligations.TableHitRefreshesAndInserts : Prop :=
  ∀ (s : State) (va : Va) (f : FrameNo), s.block.ready → s.block.tlbMisses (vpnOf va) →
    s.block.ptEntry (vpnOf va) = ⟨true, f⟩ →
    exec (.translate va) s = .next { s with
      block := { s.block with
        total := s.block.total + 1
        ts := if s.block.policy = .lru
          then s.block.ts.set (vpnOf va).toNat (s.block.total + 1) (vpnOf va).isLt else s.block.ts
        tlb := s.block.tlb.set s.block.tlbPtr.toNat ⟨true, vpnOf va, f⟩ s.block.tlbPtr.isLt
        tlbPtr := s.block.tlbPtr + 1 }
      outbox := s.outbox ++ [.xlate va (physAddr f (offsetOf va))
        (memRead s.block (physAddr f (offsetOf va)))] }

/-- From R141, R175 and R177: a fault while frames are free pages into the frame at the cursor, and
evicts nothing. -/
def Obligations.FaultTakesTheNextFreeFrame : Prop :=
  ∀ (s : State) (va : Va), s.block.ready → Memory.wf PM_SIZE s.block.pm = true →
    s.block.faultsOn (vpnOf va) → s.block.full = false →
    ∃ t, exec (.translate va) s = .next t ∧ PagedIn s t va s.block.allocPtr none

/-- From R123, R145, R175 and R177: a fault under FIFO with the frames exhausted pages into the frame at
the cursor, and evicts the lowest page that owns it. -/
def Obligations.FifoFaultEvictsTheOwnerAtTheCursor : Prop :=
  ∀ (s : State) (va : Va) (q : Vpn), s.block.ready → Memory.wf PM_SIZE s.block.pm = true →
    s.block.faultsOn (vpnOf va) → s.block.full = true → s.block.policy = .fifo →
    s.block.ptEntry q = ⟨true, s.block.allocPtr⟩ →
    (∀ p, p.toNat < q.toNat → s.block.ptEntry p ≠ ⟨true, s.block.allocPtr⟩) →
    ∃ t, exec (.translate va) s = .next t ∧ PagedIn s t va s.block.allocPtr (some q)

/-- From R146, R175 and R177: a fault under LRU with the frames exhausted evicts the resident page with
the smallest timestamp, the lowest page of several, and pages into its frame. -/
def Obligations.LruFaultEvictsTheSmallestTimestamp : Prop :=
  ∀ (s : State) (va : Va) (v : Vpn) (f : FrameNo), s.block.ready →
    Memory.wf PM_SIZE s.block.pm = true →
    s.block.faultsOn (vpnOf va) → s.block.full = true → s.block.policy = .lru →
    s.block.ptEntry v = ⟨true, f⟩ →
    (∀ p, s.block.resident p → p ≠ v → (s.block.stamp v).toNat < (s.block.stamp p).toNat ∨
      (s.block.stamp v = s.block.stamp p ∧ v.toNat < p.toNat)) →
    ∃ t, exec (.translate va) s = .next t ∧ PagedIn s t va f (some v)

/-- From R207: in a state that meets the invariants, a TRANSLATE that is not refused and not stopped by
overflow always completes: a page fault "always succeeds". -/
def Obligations.TranslateCompletes : Prop :=
  ∀ (s : State) (va : Va), s.Inv → s.wasReset = true → s.block.ready →
    ∃ t f d, exec (.translate va) s = .next t ∧ t.block.err = .none ∧
      t.block.bound f ∧ t.outbox = s.outbox ++ [.xlate va (physAddr f (offsetOf va)) d] ∧
      d = memRead t.block (physAddr f (offsetOf va))

/-- R171: a TRANSLATE that completes has exactly one of the three outcomes, and the counters tell which
one. -/
def Obligations.ExactlyOneOutcome : Prop :=
  ∀ (s t : State) (va : Va) (pa : PhysAddr) (d : Byte), exec (.translate va) s = .next t →
    t.outbox = s.outbox ++ [.xlate va pa d] →
    (¬ s.block.tlbMisses (vpnOf va) ↔
      t.block.hits = s.block.hits + 1 ∧ t.block.faults = s.block.faults) ∧
    (s.block.tlbMisses (vpnOf va) ∧ s.block.resident (vpnOf va) ↔
      t.block.hits = s.block.hits ∧ t.block.faults = s.block.faults) ∧
    (s.block.tlbMisses (vpnOf va) ∧ ¬ s.block.resident (vpnOf va) ↔
      t.block.hits = s.block.hits ∧ t.block.faults = s.block.faults + 1) ∧
    ((t.block.hits = s.block.hits + 1 ∧ t.block.faults = s.block.faults) ∨
      (t.block.hits = s.block.hits ∧ t.block.faults = s.block.faults) ∨
      (t.block.hits = s.block.hits ∧ t.block.faults = s.block.faults + 1))

/-- R172: the TRANSLATE that completes as the k-th since reset sets TOTAL to k, and one that is refused
or aborted leaves TOTAL. Along any requests after a reset, TOTAL is the number of XLATE responses. -/
def Obligations.OrdinalIsTheNumberOfCompletedRequests : Prop :=
  (∀ (s t : State) (va : Va), exec (.translate va) s = .next t →
    (∀ pa d, t.outbox = s.outbox ++ [.xlate va pa d] →
      t.block.total.toNat = s.block.total.toNat + 1) ∧
    (∀ e, t.outbox = s.outbox ++ [.error e] → t.block.total = s.block.total)) ∧
  ∀ (image : Memory) (p : Policy) (ws : List ReqWord),
    (serveAll INVALIDATE_ON_UNBIND image ws (Block.reset p)).1.total.toNat =
      (serveAll INVALIDATE_ON_UNBIND image ws (Block.reset p)).2.countP Response.isXlate

/-- R176, R148: a TLB hit leaves every timestamp, and a table hit or a fault sets the page's own to the
request's ordinal under LRU, and none under FIFO. -/
def Obligations.TimestampsFollowTableLevelAccesses : Prop :=
  ∀ (s t : State) (va : Va) (pa : PhysAddr) (d : Byte), exec (.translate va) s = .next t →
    t.outbox = s.outbox ++ [.xlate va pa d] →
    (s.block.policy = .fifo ∨ ¬ s.block.tlbMisses (vpnOf va) → t.block.ts = s.block.ts) ∧
    (s.block.policy = .lru → s.block.tlbMisses (vpnOf va) →
      t.block.stamp (vpnOf va) = t.block.total ∧
      ∀ p, p ≠ vpnOf va → t.block.stamp p = s.block.stamp p)

/-- R105, R178: the TLB takes one insert in a TRANSLATE whose lookup missed, of the mapping the page table
holds, and none in one whose lookup hit. -/
def Obligations.TlbInsertExactlyOnAMiss : Prop :=
  ∀ (s t : State) (va : Va) (pa : PhysAddr) (d : Byte), exec (.translate va) s = .next t →
    t.outbox = s.outbox ++ [.xlate va pa d] →
    (¬ s.block.tlbMisses (vpnOf va) → t.block.tlb = s.block.tlb ∧ t.block.tlbPtr = s.block.tlbPtr) ∧
    (s.block.tlbMisses (vpnOf va) → ∃ f,
      t.block.tlb = s.block.tlb.set s.block.tlbPtr.toNat ⟨true, vpnOf va, f⟩ s.block.tlbPtr.isLt ∧
      t.block.tlbPtr.toNat = (s.block.tlbPtr.toNat + 1) % 16 ∧
      t.block.ptEntry (vpnOf va) = ⟨true, f⟩)

/-- R183, and the frame of TRANSLATE: what each outcome writes, and that it writes nothing else; a
TRANSLATE that completes does not write ERR. The frame
a fault stores to is the one frame selection gives. -/
def Obligations.TranslateWritesOnlyWhatItsOutcomeSays : Prop :=
  ∀ (s t : State) (va : Va), Memory.wf PM_SIZE s.block.pm = true →
    exec (.translate va) s = .next t →
    (∃ r, t = { s with block := t.block, outbox := s.outbox ++ [r] }) ∧
    (∀ pa d, t.outbox = s.outbox ++ [.xlate va pa d] → t.block.err = s.block.err) ∧
    t.block.policy = s.block.policy ∧
    (∀ i, i ≠ s.block.tlbPtr → t.block.slot i = s.block.slot i) ∧
    (s.block.policy = .fifo → t.block.ts = s.block.ts) ∧
    (∀ p, p ≠ vpnOf va → t.block.stamp p = s.block.stamp p) ∧
    (∀ p, p ≠ vpnOf va → (t.block.ptEntry p).frame = (s.block.ptEntry p).frame) ∧
    (∀ p q, p ≠ vpnOf va → q ≠ vpnOf va → (t.block.ptEntry p).valid ≠ (s.block.ptEntry p).valid →
      (t.block.ptEntry q).valid ≠ (s.block.ptEntry q).valid → p = q) ∧
    (∀ p, p ≠ vpnOf va → (t.block.ptEntry p).valid ≠ (s.block.ptEntry p).valid →
      s.block.full = true ∧ (t.block.ptEntry p).valid = false) ∧
    (∀ f, outcomeOf s.block (vpnOf va) = .tlbHit f → t.block =
      { s.block with total := t.block.total, hits := t.block.hits, err := t.block.err }) ∧
    (∀ f, outcomeOf s.block (vpnOf va) = .tableHit f → t.block =
      { s.block with total := t.block.total, ts := t.block.ts, tlb := t.block.tlb,
                     tlbPtr := t.block.tlbPtr, err := t.block.err }) ∧
    (outcomeOf s.block (vpnOf va) = .pageFault → t.block.hits = s.block.hits ∧
      (t.block.full ≠ s.block.full → s.block.full = false ∧ s.block.allocPtr = 255)) ∧
    (outcomeOf s.block (vpnOf va) ≠ .pageFault →
      ∀ pa, memRead t.block pa = memRead s.block pa) ∧
    (∀ b f, selectFrame INVALIDATE_ON_UNBIND (countFault (countRequest s.block)) = .ok (b, f) →
      ∀ g off, g ≠ f → memRead t.block (physAddr g off) = memRead s.block (physAddr g off))

/-- R54: MemWrite sets one byte and changes nothing else; and a step changes a byte of the physical
memory only at a reset or by the page load of a fault, which puts the page's byte there. -/
def Obligations.OnlyAPageLoadWritesPhysicalMemory : Prop :=
  (∀ (b : Block) (pa : PhysAddr) (v : Byte), Memory.wf PM_SIZE b.pm = true →
    memRead (memWrite b pa v) pa = v ∧
    (∀ qa, qa ≠ pa → memRead (memWrite b pa v) qa = memRead b qa) ∧
    memWrite b pa v = { b with pm := (memWrite b pa v).pm }) ∧
  ∀ (s t : State) (g : FrameNo) (off : Offset), Memory.wf PM_SIZE s.block.pm = true →
    step s = .next t → (∀ m, s.inbox.head? = some m → m.isReset = false) →
    memRead t.block (physAddr g off) ≠ memRead s.block (physAddr g off) →
    ∃ va w rest, s.inbox = .request w :: rest ∧ decode w = .instr (.translate va) ∧
      s.block.faultsOn (vpnOf va) ∧ t.block.ptEntry (vpnOf va) = ⟨true, g⟩ ∧
      memRead t.block (physAddr g off) = backingRead s.backing (backAddr (vpnOf va) off)

/-! ## TLB, page table and frames -/

/-- R109: insert number k writes slot (k - 1) mod 16, so a lookup finds only what one of the last 16
inserts wrote. -/
def Obligations.TlbHoldsTheLastSixteenInserts : Prop :=
  (∀ s : State, Reachable s → s.block.tlbPtr.toNat = s.block.inserts % 16) ∧
  (∀ (b : Block) (p : Vpn) (f : FrameNo) (i : TlbIndex),
    (tlbInsert b p f).slot i = if i = b.tlbPtr then ⟨true, p, f⟩ else b.slot i) ∧
  ∀ (l : List (Vpn × FrameNo)) (b : Block) (p : Vpn) (f : FrameNo), 16 ≤ l.length →
    tlbLookup (l.foldl (fun c e => tlbInsert c e.1 e.2) b) p = some f →
    (p, f) ∈ l.drop (l.length - 16)

/-- R106, R126: an unbind clears only the entry's valid bit; in the variant it also clears the valid bit
of the TLB slots that hold the page, and nothing else of the TLB. -/
def Obligations.UnbindClearsOnlyValidBits : Prop :=
  ∀ (b : Block) (p : Vpn),
    ptUnbind false b p = { b with
      pt := b.pt.set p.toNat ⟨false, (b.ptEntry p).frame⟩ p.isLt } ∧
    ptUnbind true b p = { b with
      pt := b.pt.set p.toNat ⟨false, (b.ptEntry p).frame⟩ p.isLt
      tlb := (ptUnbind true b p).tlb } ∧
    ∀ i, (ptUnbind true b p).slot i =
      if (b.slot i).valid = true ∧ (b.slot i).vpn = p
      then ⟨false, (b.slot i).vpn, (b.slot i).frame⟩ else b.slot i

/-- R128: in every state reached from reset, the frames below ALLOC_PTR, or all 256 once FULL is set, are
bound, each to one page, and there are no other resident pages. -/
def Obligations.ResidentPagesFillTheFrames : Prop :=
  ∀ s : State, Reachable s →
    (s.block.full = false ∧ s.block.residentCount = s.block.allocPtr.toNat ∧
      (∀ f : FrameNo, f.toNat < s.block.allocPtr.toNat → ∃! p, s.block.owns p f) ∧
      (∀ f : FrameNo, s.block.allocPtr.toNat ≤ f.toNat → ¬ s.block.bound f)) ∨
    (s.block.full = true ∧ s.block.residentCount = 256 ∧
      ∀ f : FrameNo, ∃! p, s.block.owns p f)

/-- R150: under FIFO the k-th eviction since reset evicts frame (k - 1) mod 256. -/
def Obligations.FifoEvictsFramesInTurn : Prop :=
  ∀ (s : State) (va : Va), s.Inv → s.wasReset = true → s.block.ready → s.block.policy = .fifo →
    s.block.full = true → s.block.faultsOn (vpnOf va) →
    ∃ t q, exec (.translate va) s = .next t ∧ t.block.evictions = s.block.evictions + 1 ∧
      s.block.owns q (BitVec.ofNat 8 ((t.block.evictions - 1) % 256)) ∧ ¬ t.block.resident q ∧
      t.block.owns (vpnOf va) (BitVec.ofNat 8 ((t.block.evictions - 1) % 256))

/-- R151: a trace that faults on 257 distinct pages under FIFO evicts the page first loaded into frame 0,
and no other. -/
def Obligations.FirstPageLoadedIsFirstEvicted : Prop :=
  ∀ (image : Memory) (vas : List Va), vas.length = 257 → (vas.map vpnOf).Nodup →
    ∃ t, run 257 { State.boot 0 image with
        inbox := vas.map fun va => .request (encode (.translate va)) } = .next t ∧
      t.block.faults = 257 ∧ t.block.hits = 0 ∧ t.block.err = .none ∧
      t.block.full = true ∧ t.block.allocPtr = 1 ∧
      (∀ va, vas[0]? = some va → ¬ t.block.resident (vpnOf va)) ∧
      (∀ k va, 1 ≤ k → k < 257 → vas[k]? = some va →
        t.block.owns (vpnOf va) (BitVec.ofNat 8 (k % 256)))

/-- From R146 and R147: under LRU, in a state that meets the invariants, a fault with the frames exhausted
evicts the one resident page whose last table-level access has the smallest ordinal, strictly. -/
def Obligations.LruEvictsTheLeastRecentlyUsedPage : Prop :=
  ∀ (s : State) (va : Va), s.Inv → s.wasReset = true → s.block.ready → s.block.policy = .lru →
    s.block.full = true → s.block.faultsOn (vpnOf va) →
    ∃ t v f, exec (.translate va) s = .next t ∧ s.block.owns v f ∧
      (∀ p, s.block.resident p → p ≠ v → (s.block.stamp v).toNat < (s.block.stamp p).toNat) ∧
      ¬ t.block.resident v ∧ t.block.owns (vpnOf va) f ∧
      ∀ p, p ≠ v → p ≠ vpnOf va → t.block.ptEntry p = s.block.ptEntry p

/-! ## Data, stale hits, counters, and the whole run -/

/-- R159: a TRANSLATE that does not hit stale returns the byte of its own address; a stale hit returns the
byte of the page that now owns the slot's frame; before the first eviction no request returns anything
but the byte of its own address; and with `INVALIDATE_ON_UNBIND = 1` no request ever does. -/
def Obligations.DataByteIsTheOwnersByte : Prop :=
  (∀ (s t : State) (va : Va) (pa : PhysAddr) (d : Byte), s.Inv → s.wasReset = true →
    exec (.translate va) s = .next t → t.outbox = s.outbox ++ [.xlate va pa d] →
    ((∀ i, (s.block.slot i).holds (vpnOf va) = true → ¬ s.block.stale (s.block.slot i)) →
      d = backingRead s.backing (usedBits va)) ∧
    (∀ i, (s.block.slot i).holds (vpnOf va) = true → s.block.stale (s.block.slot i) →
      ∃ q, s.block.owns q (s.block.slot i).frame ∧
        d = backingRead s.backing (backAddr q (offsetOf va))) ∧
    (s.block.evictions = 0 → d = backingRead s.backing (usedBits va))) ∧
  ∀ (image : Memory) (p : Policy) (ws : List ReqWord) (va : Va) (pa : PhysAddr) (d : Byte),
    .xlate va pa d ∈ (serveAll true image ws (Block.reset p)).2 →
    d = backingRead image (usedBits va)

/-- R111: in every state reached from reset, a valid slot's frame is bound; and with
`INVALIDATE_ON_UNBIND = 1` every valid slot is current, after any requests. -/
def Obligations.VariantKeepsTheTlbCoherent : Prop :=
  (∀ s : State, Reachable s →
    ∀ i, (s.block.slot i).valid = true → s.block.bound (s.block.slot i).frame) ∧
  ∀ (image : Memory) (p : Policy) (ws : List ReqWord) (i : TlbIndex),
    (((serveAll true image ws (Block.reset p)).1.slot i).valid = true →
      (serveAll true image ws (Block.reset p)).1.owns
        ((serveAll true image ws (Block.reset p)).1.slot i).vpn
        ((serveAll true image ws (Block.reset p)).1.slot i).frame)

/-- R108: when a fault on another page evicts a page whose TLB slot stays, the slot is stale, and the next
TRANSLATE of the evicted page hits it: it returns the frame and a byte of the page that now owns the
frame, counts as a hit, and leaves the timestamps. While a slot holds an unmapped page, the page stays
unmapped. With `INVALIDATE_ON_UNBIND = 1` no slot is ever stale. -/
def Obligations.EvictionLeavesAStaleHit : Prop :=
  (∀ (s t : State) (va va' : Va) (i : TlbIndex) (f : FrameNo), s.Inv → s.wasReset = true →
    s.block.err = .none → s.block.total.toNat + 2 < 2 ^ 32 →
    s.block.slot i = ⟨true, vpnOf va, f⟩ → s.block.owns (vpnOf va) f → i ≠ s.block.tlbPtr →
    exec (.translate va') s = .next t → ¬ t.block.resident (vpnOf va) →
    t.block.stale (t.block.slot i) ∧ t.block.owns (vpnOf va') f ∧
    ∃ u, exec (.translate va) t = .next u ∧
      u.outbox = t.outbox ++ [.xlate va (physAddr f (offsetOf va))
        (backingRead s.backing (backAddr (vpnOf va') (offsetOf va)))] ∧
      u.block.hits = t.block.hits + 1 ∧ u.block.ts = t.block.ts ∧
      ¬ u.block.resident (vpnOf va)) ∧
  (∀ (s t : State) (i : TlbIndex) (p : Vpn), (s.block.slot i).holds p = true →
    ¬ s.block.resident p → step s = .next t → ¬ t.block.resident p) ∧
  ∀ (image : Memory) (p : Policy) (ws : List ReqWord),
    (serveAll true image ws (Block.reset p)).1.coherent

/-- R158: what the physical memory held at reset is never observed: with any other contents, the same
requests get the same responses. -/
def Obligations.ResetContentsOfMemoryAreNeverObserved : Prop :=
  ∀ (image m : Memory) (p : Policy) (ws : List ReqWord), Memory.wf PM_SIZE m = true →
    (serveAll INVALIDATE_ON_UNBIND image ws { Block.reset p with pm := m }).2 =
      (serveAll INVALIDATE_ON_UNBIND image ws (Block.reset p)).2

/-- R181: after any requests since reset, the hits, the faults and the table hits add up to TOTAL. -/
def Obligations.CountersAreConserved : Prop :=
  ∀ (image : Memory) (p : Policy) (ws : List ReqWord),
    (serveAll INVALIDATE_ON_UNBIND image ws (Block.reset p)).1.hits.toNat +
      (serveAll INVALIDATE_ON_UNBIND image ws (Block.reset p)).1.faults.toNat +
      tableHits INVALIDATE_ON_UNBIND image ws (Block.reset p) =
    (serveAll INVALIDATE_ON_UNBIND image ws (Block.reset p)).1.total.toNat

/-- From R235, R89, R90, R172 and R181: the run of a trace of at most 2^32 - 1 lines, begun before the first
reset, ends with one XLATE for each line, in file order, each echoing the line's integer, and a final
STATS with their number. For a line whose integer is out of R90's range this is the model's choice
(log 11): it is sent, and echoed, modulo 2^32. -/
def Obligations.EndOfRunObservationOfATrace : Prop :=
  ∀ (s : State) (trace : List Int), s.wasReset = false →
    s.outbox = [] → s.inbox = traceMoves trace → trace.length < 2 ^ 32 →
    ∃ t xlates faults hits, run (trace.length + 2) s = .next t ∧
      endOfRun t.outbox =
        (xlates, some (.stats (BitVec.ofNat 32 trace.length) faults hits 0)) ∧
      xlates.map Response.va? = trace.map (fun n => some (BitVec.ofInt 32 n)) ∧
      faults.toNat + hits.toNat ≤ trace.length

/-! ## Invariants -/

/-- From R230: the state right after a reset meets the invariants, with any level of the policy input and
any backing image in its canonical form; so does `State.reset`, whose input and image are the model's
choice (logs 1 and 3). -/
def Obligations.ResetMeetsTheInvariants : Prop :=
  (∀ (input : BitVec 1) (image : Memory), Memory.wf VA_SPACE image = true →
    (State.boot input image).Inv) ∧ State.reset.Inv

/-- From R107, R110, R111, R127, R128, R147, R157 and R181: every step keeps the invariants, from every
state that meets them. -/
def Obligations.EveryStepKeepsTheInvariants : Prop :=
  ∀ s t : State, s.Inv → step s = .next t → t.Inv

/-- R107, R127, R157: in every state reached from reset, at most one valid slot holds a page, no two pages
are resident in one frame, and a resident page's frame holds the page's bytes. -/
def Obligations.ReachableStatesMeetTheInvariants : Prop :=
  ∀ s : State, Reachable s → s.wasReset = true ∧ s.Inv ∧
    (∀ i j, (s.block.slot i).valid = true → (s.block.slot j).valid = true →
      (s.block.slot i).vpn = (s.block.slot j).vpn → i = j) ∧
    (∀ p q f, p ≠ q → ¬ (s.block.ptEntry p = ⟨true, f⟩ ∧ s.block.ptEntry q = ⟨true, f⟩)) ∧
    (∀ p f off, s.block.ptEntry p = ⟨true, f⟩ →
      memRead s.block (physAddr f off) = backingRead s.backing (backAddr p off))

/-! ## Addresses, the geometry, and a new image -/

/-- R8: the relations between the parameters. -/
def Obligations.GeometryRelations : Prop :=
  PAGE_SIZE = 2 ^ OFFSET_BITS ∧ N_PAGES = 2 ^ PAGE_BITS ∧ VA_USED_BITS = PAGE_BITS + OFFSET_BITS ∧
  N_FRAMES = 2 ^ FRAME_BITS ∧ PA_BITS = FRAME_BITS + OFFSET_BITS ∧ N_FRAMES < N_PAGES ∧
  TLB_SIZE = 2 ^ TLB_PTR_BITS ∧ relationsHold

/-- R52: a physical address is `frame*1024 + offset`, `(frame << 10) | offset`, and names one byte of the
physical memory; every 18-bit value is one, of one frame and one offset. -/
def Obligations.PhysicalAddressIsFrameTimes1024PlusOffset : Prop :=
  (∀ (f : FrameNo) (o : Offset),
    (physAddr f o).toNat = f.toNat * 1024 + o.toNat ∧
    physAddr f o = (f.setWidth 18 <<< 10) ||| o.setWidth 18) ∧
  (∀ (b : Block) (pa : PhysAddr), memRead b pa = b.pm.read pa.toNat) ∧
  ∀ pa : BitVec 18, ∃ f o, pa = physAddr f o ∧ f.toNat = pa.toNat / 1024 ∧ o.toNat = pa.toNat % 1024

/-- From R51, R55, R84 and R149: byte `o` of page `p` is at `p*1024 + o` in the backing store, the address of
a virtual address's byte there is its low 20 bits, which are its page and its offset, and a page load
copies the 1024 bytes of the page from there to `f*1024` on, leaving every other byte. -/
def Obligations.BackingAddressIsPageTimes1024PlusOffset : Prop :=
  (∀ (p : Vpn) (o : Offset), (backAddr p o).toNat = p.toNat * 1024 + o.toNat) ∧
  (∀ va : Va, (usedBits va).toNat = va.toNat % 1048576 ∧
    usedBits va = backAddr (vpnOf va) (offsetOf va) ∧
    (vpnOf va).toNat = va.toNat / 1024 % 1024 ∧ (offsetOf va).toNat = va.toNat % 1024) ∧
  (∀ (image : Memory) (a : BackAddr), backingRead image a = image.read a.toNat) ∧
  ∀ (image : Memory) (b : Block) (p : Vpn) (f : FrameNo), Memory.wf PM_SIZE b.pm = true →
    loadPage image b p f = { b with pm := (loadPage image b p f).pm } ∧
    (∀ j < 1024, (loadPage image b p f).pm.read (f.toNat * 1024 + j) =
      image.read (p.toNat * 1024 + j)) ∧
    ∀ a, a / 1024 ≠ f.toNat → (loadPage image b p f).pm.read a = b.pm.read a

/-- R177: a TRANSLATE that completes echoes its operand, and answers PA = f*1024 + OFF, with f the frame its
outcome resolved (the lowest matching slot's, the page table's, or the one just selected), and the byte
there after the page load, which on a fault is a byte of the page just loaded. -/
def Obligations.XlateAnswersTheResolvedFrame : Prop :=
  ∀ (s t : State) (va va' : Va) (pa : PhysAddr) (d : Byte),
    exec (.translate va) s = .next t → t.outbox = s.outbox ++ [.xlate va' pa d] →
    va' = va ∧ pa.toNat ≤ 262143 ∧ d = t.block.pm.read pa.toNat ∧
    ∃ f : FrameNo, pa.toNat = f.toNat * 1024 + va.toNat % 1024 ∧
      (∀ i, (s.block.slot i).holds (vpnOf va) = true →
        (∀ j, j.toNat < i.toNat → (s.block.slot j).holds (vpnOf va) = false) →
        f = (s.block.slot i).frame) ∧
      (s.block.tlbMisses (vpnOf va) → ∀ g, s.block.ptEntry (vpnOf va) = ⟨true, g⟩ → f = g) ∧
      (s.block.faultsOn (vpnOf va) →
        (∀ b g, selectFrame INVALIDATE_ON_UNBIND (countFault (countRequest s.block)) = .ok (b, g) →
          f = g) ∧
        (Memory.wf PM_SIZE s.block.pm = true → d = s.backing.read (va.toNat % 1048576)))

/-- From R236 and R237, with the model's choice of form (log 10): a reset that binds an image of 2^20 bytes
does what a reset does in the state with that image bound, and one that is no such image never reaches the
block (D15) and is refused. -/
def Obligations.ResetWithImageBeginsARunOnIt : Prop :=
  (∀ (s : State) (image : Memory) (rest : List HostMove),
    s.inbox = .resetWithImage image :: rest → Memory.wf VA_SPACE image = true → ∃ t,
    step s = .next t ∧ step { s with backing := image, inbox := .reset :: rest } = .next t ∧
    t = { State.boot s.policyInput image with inbox := rest, outbox := s.outbox }) ∧
  ∀ (s : State) (image : Memory) (rest : List HostMove),
    s.inbox = .resetWithImage image :: rest → Memory.wf VA_SPACE image = false →
    step s = .refused .badImage
end

