-- ==== Sys2Proof/Laws/Config.lean ====
section
/-! SUPPORT. The relations that the parameters satisfy (00_scope.md R8), and the lists of page numbers
and offsets. -/

namespace Sys2Proof

open Config

theorem page_size_eq : PAGE_SIZE = 2 ^ OFFSET_BITS := rfl
theorem n_pages_eq : N_PAGES = 2 ^ PAGE_BITS := rfl
theorem va_used_bits_eq : VA_USED_BITS = PAGE_BITS + OFFSET_BITS := rfl
theorem n_frames_eq : N_FRAMES = 2 ^ FRAME_BITS := rfl
theorem pa_bits_eq : PA_BITS = FRAME_BITS + OFFSET_BITS := rfl
theorem n_frames_lt_n_pages : N_FRAMES < N_PAGES := by decide
theorem tlb_size_eq : TLB_SIZE = 2 ^ TLB_PTR_BITS := rfl
theorem va_space_eq : VA_SPACE = N_PAGES * PAGE_SIZE := rfl
theorem pm_size_eq : PM_SIZE = N_FRAMES * PAGE_SIZE := rfl

/-- R8: every relation that the rules rely on holds of the values of R7. -/
theorem relations_hold : relationsHold :=
  ⟨page_size_eq, n_pages_eq, va_used_bits_eq, n_frames_eq, pa_bits_eq, n_frames_lt_n_pages, tlb_size_eq⟩

/-- An index below the size of the list's range is on the list of all bit vectors of a width. -/
theorem mem_map_ofNat {w n : Nat} (h : 2 ^ w ≤ n) (p : BitVec w) :
    p ∈ (List.range n).map (BitVec.ofNat w) := by
  simp only [List.mem_map, List.mem_range]
  exact ⟨p.toNat, Nat.lt_of_lt_of_le p.isLt h, by simp⟩

@[simp] theorem mem_allVpns (p : Vpn) : p ∈ allVpns := by
  unfold allVpns
  exact mem_map_ofNat (Nat.le_refl _) p

@[simp] theorem mem_allOffsets (o : Offset) : o ∈ allOffsets := by
  unfold allOffsets
  exact mem_map_ofNat (Nat.le_refl _) o

/-- The list of all bit vectors of a width is strictly ascending. -/
theorem pairwise_map_ofNat {w n : Nat} (h : n ≤ 2 ^ w) :
    ((List.range n).map (BitVec.ofNat w)).Pairwise fun p q => p.toNat < q.toNat := by
  rw [List.pairwise_map]
  refine List.Pairwise.imp_of_mem ?_ List.pairwise_lt_range
  intro a b ha hb hab
  have ha := List.mem_range.1 ha
  have hb := List.mem_range.1 hb
  simpa [Nat.mod_eq_of_lt (Nat.lt_of_lt_of_le ha h), Nat.mod_eq_of_lt (Nat.lt_of_lt_of_le hb h)]

theorem allVpns_ascending : allVpns.Pairwise fun p q => p.toNat < q.toNat := by
  unfold allVpns
  exact pairwise_map_ofNat (Nat.le_refl _)

theorem allOffsets_ascending : allOffsets.Pairwise fun p q => p.toNat < q.toNat := by
  unfold allOffsets
  exact pairwise_map_ofNat (Nat.le_refl _)

/-- A search of an ascending list that holds everything finds `p` exactly when `p` is the least that
the test accepts. -/
theorem find_ascending_iff {w : Nat} {l : List (BitVec w)} (hm : ∀ p, p ∈ l)
    (hs : l.Pairwise fun p q => p.toNat < q.toNat) (test : BitVec w → Bool) (p : BitVec w) :
    l.find? test = some p ↔ test p = true ∧ ∀ q, q.toNat < p.toNat → test q = false := by
  constructor
  · intro h
    obtain ⟨hp, as, bs, rfl, has⟩ := List.find?_eq_some_iff_append.1 h
    refine ⟨hp, fun q hq => ?_⟩
    rcases List.mem_append.1 (hm q) with hqa | hqb
    · simpa using has q hqa
    · exfalso
      have hs' := (List.pairwise_append.1 hs).2.1
      rcases List.mem_cons.1 hqb with rfl | hqb
      · omega
      · have := (List.pairwise_cons.1 hs').1 q hqb
        omega
  · rintro ⟨hp, hlt⟩
    cases hf : l.find? test with
    | none => exact absurd hp (by simpa using List.find?_eq_none.1 hf p (hm p))
    | some q =>
      obtain ⟨hq, as, bs, rfl, has⟩ := List.find?_eq_some_iff_append.1 hf
      congr 1
      rcases List.mem_append.1 (hm p) with hpa | hpb
      · have := has p hpa
        simp [hp] at this
      · rcases List.mem_cons.1 hpb with h | hpb
        · exact h.symm
        · have hs' := (List.pairwise_append.1 hs).2.1
          have := hlt q ((List.pairwise_cons.1 hs').1 p hpb)
          simp [hq] at this

end Sys2Proof
end

