-- ==== Sys2Proof/Laws/State.lean ====
section
/-! SUPPORT. What each update of the state leaves and what it puts: one lemma per field and update. -/

namespace Sys2Proof.Machine

open Config

section setPtEntry
variable (b : Block) (p : Vpn) (e : PtEntry)

@[simp] theorem Block.setPtEntry_policy : (b.setPtEntry p e).policy = b.policy := rfl
@[simp] theorem Block.setPtEntry_tlb : (b.setPtEntry p e).tlb = b.tlb := rfl
@[simp] theorem Block.setPtEntry_tlbPtr : (b.setPtEntry p e).tlbPtr = b.tlbPtr := rfl
@[simp] theorem Block.setPtEntry_ts : (b.setPtEntry p e).ts = b.ts := rfl
@[simp] theorem Block.setPtEntry_allocPtr : (b.setPtEntry p e).allocPtr = b.allocPtr := rfl
@[simp] theorem Block.setPtEntry_full : (b.setPtEntry p e).full = b.full := rfl
@[simp] theorem Block.setPtEntry_pm : (b.setPtEntry p e).pm = b.pm := rfl
@[simp] theorem Block.setPtEntry_total : (b.setPtEntry p e).total = b.total := rfl
@[simp] theorem Block.setPtEntry_faults : (b.setPtEntry p e).faults = b.faults := rfl
@[simp] theorem Block.setPtEntry_hits : (b.setPtEntry p e).hits = b.hits := rfl
@[simp] theorem Block.setPtEntry_err : (b.setPtEntry p e).err = b.err := rfl
end setPtEntry

section setStamp
variable (b : Block) (p : Vpn) (t : Stamp)

@[simp] theorem Block.setStamp_policy : (b.setStamp p t).policy = b.policy := rfl
@[simp] theorem Block.setStamp_tlb : (b.setStamp p t).tlb = b.tlb := rfl
@[simp] theorem Block.setStamp_tlbPtr : (b.setStamp p t).tlbPtr = b.tlbPtr := rfl
@[simp] theorem Block.setStamp_pt : (b.setStamp p t).pt = b.pt := rfl
@[simp] theorem Block.setStamp_allocPtr : (b.setStamp p t).allocPtr = b.allocPtr := rfl
@[simp] theorem Block.setStamp_full : (b.setStamp p t).full = b.full := rfl
@[simp] theorem Block.setStamp_pm : (b.setStamp p t).pm = b.pm := rfl
@[simp] theorem Block.setStamp_total : (b.setStamp p t).total = b.total := rfl
@[simp] theorem Block.setStamp_faults : (b.setStamp p t).faults = b.faults := rfl
@[simp] theorem Block.setStamp_hits : (b.setStamp p t).hits = b.hits := rfl
@[simp] theorem Block.setStamp_err : (b.setStamp p t).err = b.err := rfl
end setStamp

section setSlot
variable (b : Block) (i : TlbIndex) (e : TlbSlot)

@[simp] theorem Block.setSlot_policy : (b.setSlot i e).policy = b.policy := rfl
@[simp] theorem Block.setSlot_tlbPtr : (b.setSlot i e).tlbPtr = b.tlbPtr := rfl
@[simp] theorem Block.setSlot_pt : (b.setSlot i e).pt = b.pt := rfl
@[simp] theorem Block.setSlot_ts : (b.setSlot i e).ts = b.ts := rfl
@[simp] theorem Block.setSlot_allocPtr : (b.setSlot i e).allocPtr = b.allocPtr := rfl
@[simp] theorem Block.setSlot_full : (b.setSlot i e).full = b.full := rfl
@[simp] theorem Block.setSlot_pm : (b.setSlot i e).pm = b.pm := rfl
@[simp] theorem Block.setSlot_total : (b.setSlot i e).total = b.total := rfl
@[simp] theorem Block.setSlot_faults : (b.setSlot i e).faults = b.faults := rfl
@[simp] theorem Block.setSlot_hits : (b.setSlot i e).hits = b.hits := rfl
@[simp] theorem Block.setSlot_err : (b.setSlot i e).err = b.err := rfl
end setSlot

section memWrite
variable (b : Block) (pa : PhysAddr) (v : Byte)

@[simp] theorem memWrite_policy : (memWrite b pa v).policy = b.policy := rfl
@[simp] theorem memWrite_tlb : (memWrite b pa v).tlb = b.tlb := rfl
@[simp] theorem memWrite_tlbPtr : (memWrite b pa v).tlbPtr = b.tlbPtr := rfl
@[simp] theorem memWrite_pt : (memWrite b pa v).pt = b.pt := rfl
@[simp] theorem memWrite_ts : (memWrite b pa v).ts = b.ts := rfl
@[simp] theorem memWrite_allocPtr : (memWrite b pa v).allocPtr = b.allocPtr := rfl
@[simp] theorem memWrite_full : (memWrite b pa v).full = b.full := rfl
@[simp] theorem memWrite_total : (memWrite b pa v).total = b.total := rfl
@[simp] theorem memWrite_faults : (memWrite b pa v).faults = b.faults := rfl
@[simp] theorem memWrite_hits : (memWrite b pa v).hits = b.hits := rfl
@[simp] theorem memWrite_err : (memWrite b pa v).err = b.err := rfl
end memWrite

section countRequest
variable (b : Block)

@[simp] theorem countRequest_policy : (countRequest b).policy = b.policy := rfl
@[simp] theorem countRequest_tlb : (countRequest b).tlb = b.tlb := rfl
@[simp] theorem countRequest_tlbPtr : (countRequest b).tlbPtr = b.tlbPtr := rfl
@[simp] theorem countRequest_pt : (countRequest b).pt = b.pt := rfl
@[simp] theorem countRequest_ts : (countRequest b).ts = b.ts := rfl
@[simp] theorem countRequest_allocPtr : (countRequest b).allocPtr = b.allocPtr := rfl
@[simp] theorem countRequest_full : (countRequest b).full = b.full := rfl
@[simp] theorem countRequest_pm : (countRequest b).pm = b.pm := rfl
@[simp] theorem countRequest_faults : (countRequest b).faults = b.faults := rfl
@[simp] theorem countRequest_hits : (countRequest b).hits = b.hits := rfl
@[simp] theorem countRequest_err : (countRequest b).err = b.err := rfl
end countRequest

section countHit
variable (b : Block)

@[simp] theorem countHit_policy : (countHit b).policy = b.policy := rfl
@[simp] theorem countHit_tlb : (countHit b).tlb = b.tlb := rfl
@[simp] theorem countHit_tlbPtr : (countHit b).tlbPtr = b.tlbPtr := rfl
@[simp] theorem countHit_pt : (countHit b).pt = b.pt := rfl
@[simp] theorem countHit_ts : (countHit b).ts = b.ts := rfl
@[simp] theorem countHit_allocPtr : (countHit b).allocPtr = b.allocPtr := rfl
@[simp] theorem countHit_full : (countHit b).full = b.full := rfl
@[simp] theorem countHit_pm : (countHit b).pm = b.pm := rfl
@[simp] theorem countHit_total : (countHit b).total = b.total := rfl
@[simp] theorem countHit_faults : (countHit b).faults = b.faults := rfl
@[simp] theorem countHit_err : (countHit b).err = b.err := rfl
end countHit

section countFault
variable (b : Block)

@[simp] theorem countFault_policy : (countFault b).policy = b.policy := rfl
@[simp] theorem countFault_tlb : (countFault b).tlb = b.tlb := rfl
@[simp] theorem countFault_tlbPtr : (countFault b).tlbPtr = b.tlbPtr := rfl
@[simp] theorem countFault_pt : (countFault b).pt = b.pt := rfl
@[simp] theorem countFault_ts : (countFault b).ts = b.ts := rfl
@[simp] theorem countFault_allocPtr : (countFault b).allocPtr = b.allocPtr := rfl
@[simp] theorem countFault_full : (countFault b).full = b.full := rfl
@[simp] theorem countFault_pm : (countFault b).pm = b.pm := rfl
@[simp] theorem countFault_total : (countFault b).total = b.total := rfl
@[simp] theorem countFault_hits : (countFault b).hits = b.hits := rfl
@[simp] theorem countFault_err : (countFault b).err = b.err := rfl
end countFault

theorem Block.setPtEntry_pt (b : Block) (p : Vpn) (e : PtEntry) :
    (b.setPtEntry p e).pt = b.pt.set p.toNat e p.isLt := rfl

theorem Block.setStamp_ts (b : Block) (p : Vpn) (t : Stamp) :
    (b.setStamp p t).ts = b.ts.set p.toNat t p.isLt := rfl

theorem Block.setSlot_tlb (b : Block) (i : TlbIndex) (e : TlbSlot) :
    (b.setSlot i e).tlb = b.tlb.set i.toNat e i.isLt := rfl

@[simp] theorem memWrite_pm (b : Block) (pa : PhysAddr) (v : Byte) :
    (memWrite b pa v).pm = Memory.write b.pm pa.toNat v := rfl

@[simp] theorem countRequest_total (b : Block) : (countRequest b).total = ordinalOf b := rfl
@[simp] theorem countHit_hits (b : Block) : (countHit b).hits = b.hits + 1 := rfl
@[simp] theorem countFault_faults (b : Block) : (countFault b).faults = b.faults + 1 := rfl

/-- Two blocks with the same page table have the same entries. -/
theorem Block.ptEntry_congr {b c : Block} (h : b.pt = c.pt) (p : Vpn) : b.ptEntry p = c.ptEntry p := by
  simp only [Block.ptEntry, h]

/-- Two blocks with the same timestamps. -/
theorem Block.stamp_congr {b c : Block} (h : b.ts = c.ts) (p : Vpn) : b.stamp p = c.stamp p := by
  simp only [Block.stamp, h]

/-- Two blocks with the same TLB have the same slots. -/
theorem Block.slot_congr {b c : Block} (h : b.tlb = c.tlb) (i : TlbIndex) : b.slot i = c.slot i := by
  simp only [Block.slot, h]

/-- Reading an entry after writing one. -/
theorem Block.setPtEntry_ptEntry (b : Block) (p q : Vpn) (e : PtEntry) :
    (b.setPtEntry p e).ptEntry q = if p = q then e else b.ptEntry q := by
  simp only [Block.ptEntry, Block.setPtEntry_pt, Vector.getElem_set, BitVec.toNat_inj]

/-- Reading a timestamp after writing one. -/
theorem Block.setStamp_stamp (b : Block) (p q : Vpn) (t : Stamp) :
    (b.setStamp p t).stamp q = if p = q then t else b.stamp q := by
  simp only [Block.stamp, Block.setStamp_ts, Vector.getElem_set, BitVec.toNat_inj]

/-- Reading a slot after writing one. -/
theorem Block.setSlot_slot (b : Block) (i j : TlbIndex) (e : TlbSlot) :
    (b.setSlot i e).slot j = if i = j then e else b.slot j := by
  simp only [Block.slot, Block.setSlot_tlb, Vector.getElem_set, BitVec.toNat_inj]

section answer
variable (s : State) (r : Block × Response)
@[simp] theorem State.answer_block : (s.answer r).block = r.1 := rfl
@[simp] theorem State.answer_backing : (s.answer r).backing = s.backing := rfl
@[simp] theorem State.answer_policyInput : (s.answer r).policyInput = s.policyInput := rfl
@[simp] theorem State.answer_wasReset : (s.answer r).wasReset = s.wasReset := rfl
@[simp] theorem State.answer_inbox : (s.answer r).inbox = s.inbox := rfl
@[simp] theorem State.answer_outbox : (s.answer r).outbox = s.outbox ++ [r.2] := rfl
end answer

section resetBlock
variable (s : State)
@[simp] theorem State.resetBlock_block :
    s.resetBlock.block = Block.reset (Policy.ofInput s.policyInput) := rfl
@[simp] theorem State.resetBlock_backing : s.resetBlock.backing = s.backing := rfl
@[simp] theorem State.resetBlock_policyInput : s.resetBlock.policyInput = s.policyInput := rfl
@[simp] theorem State.resetBlock_wasReset : s.resetBlock.wasReset = true := rfl
@[simp] theorem State.resetBlock_inbox : s.resetBlock.inbox = s.inbox := rfl
@[simp] theorem State.resetBlock_outbox : s.resetBlock.outbox = s.outbox := rfl
end resetBlock

section reset
variable (p : Policy)
@[simp] theorem Block.reset_policy : (Block.reset p).policy = p := rfl
@[simp] theorem Block.reset_tlbPtr : (Block.reset p).tlbPtr = 0 := rfl
@[simp] theorem Block.reset_allocPtr : (Block.reset p).allocPtr = 0 := rfl
@[simp] theorem Block.reset_full : (Block.reset p).full = false := rfl
@[simp] theorem Block.reset_pm : (Block.reset p).pm = [] := rfl
@[simp] theorem Block.reset_total : (Block.reset p).total = 0 := rfl
@[simp] theorem Block.reset_faults : (Block.reset p).faults = 0 := rfl
@[simp] theorem Block.reset_hits : (Block.reset p).hits = 0 := rfl
@[simp] theorem Block.reset_err : (Block.reset p).err = .none := rfl
@[simp] theorem Block.reset_slot (i : TlbIndex) : (Block.reset p).slot i = ⟨false, 0, 0⟩ := by
  simp [Block.slot, Block.reset]
@[simp] theorem Block.reset_ptEntry (q : Vpn) : (Block.reset p).ptEntry q = ⟨false, 0⟩ := by
  simp [Block.ptEntry, Block.reset]
@[simp] theorem Block.reset_stamp (q : Vpn) : (Block.reset p).stamp q = 0 := by
  simp [Block.stamp, Block.reset]
end reset

/-- What a block fault leaves: everything but `ERR` (R201). -/
theorem raiseBlockFault_fst (fault : BlockFault) (b : Block) :
    (raiseBlockFault fault b).1 = { b with err := recordFault b.err fault } := rfl

theorem recordFault_none (fault : BlockFault) : recordFault .none fault = fault.code := rfl

theorem recordFault_first {err : ErrCode} (h : err ≠ .none) (fault : BlockFault) :
    recordFault err fault = err := by simp [recordFault, h]

end Sys2Proof.Machine
end

