-- ==== Sys2Proof/Laws/Memory.lean ====
section
/-! SUPPORT. The laws of a memory: what a read gives after a write, and that every write keeps the
canonical form (20_memory.md R53, R54). -/

namespace Sys2Proof.Machine

open Config

@[simp] theorem Memory.read_nil (x : Nat) : Memory.read [] x = UNLISTED_BYTE := rfl

theorem Memory.read_cons (a : Nat) (v : Byte) (m : Memory) (x : Nat) :
    Memory.read ((a, v) :: m) x = if a = x then v else Memory.read m x := rfl

theorem Memory.wfFrom_cons {size lo a : Nat} {v : Byte} {m : Memory} :
    Memory.wfFrom size lo ((a, v) :: m) = true ↔
      lo ≤ a ∧ a < size ∧ v ≠ UNLISTED_BYTE ∧ Memory.wfFrom size (a + 1) m = true := by
  simp [Memory.wfFrom, and_assoc]

/-- A memory in canonical form from an address on is so from every lower address. -/
theorem Memory.wfFrom_mono {size lo lo' : Nat} (h : lo' ≤ lo) :
    ∀ {m : Memory}, Memory.wfFrom size lo m = true → Memory.wfFrom size lo' m = true
  | [], _ => rfl
  | (a, v) :: m, hm => by
    have := Memory.wfFrom_cons.1 hm
    exact Memory.wfFrom_cons.2 ⟨by omega, this.2⟩

/-- Below the first address of a canonical memory, every address is unlisted. -/
theorem Memory.read_below {size lo x : Nat} (hx : x < lo) :
    ∀ {m : Memory}, Memory.wfFrom size lo m = true → Memory.read m x = UNLISTED_BYTE
  | [], _ => rfl
  | (a, v) :: m, hm => by
    obtain ⟨h1, _, _, h4⟩ := Memory.wfFrom_cons.1 hm
    rw [Memory.read_cons, if_neg (by omega)]
    exact Memory.read_below (by omega) h4

theorem Memory.put_wf {size lo x : Nat} {v : Byte} {m : Memory} (hlo : lo ≤ x) (hx : x < size)
    (hm : Memory.wfFrom size (x + 1) m = true) : Memory.wfFrom size lo (Memory.put x v m) = true := by
  unfold Memory.put
  split
  · exact Memory.wfFrom_mono (by omega) hm
  · rename_i hv
    exact Memory.wfFrom_cons.2 ⟨hlo, hx, hv, hm⟩

theorem Memory.write_wfFrom {size x : Nat} {v : Byte} (hx : x < size) :
    ∀ {m : Memory} {lo : Nat}, lo ≤ x → Memory.wfFrom size lo m = true →
      Memory.wfFrom size lo (Memory.write m x v) = true
  | [], _, hlo, _ => Memory.put_wf hlo hx rfl
  | (a, w) :: m, lo, hlo, hm => by
    obtain ⟨h1, h2, h3, h4⟩ := Memory.wfFrom_cons.1 hm
    simp only [Memory.write]
    split
    · exact Memory.put_wf hlo hx (Memory.wfFrom_cons.2 ⟨by omega, h2, h3, h4⟩)
    · split
      · rename_i hxa
        subst hxa
        exact Memory.put_wf hlo hx h4
      · exact Memory.wfFrom_cons.2 ⟨h1, h2, h3, Memory.write_wfFrom hx (by omega) h4⟩

/-- A write keeps the canonical form. -/
theorem Memory.write_wf {size x : Nat} {v : Byte} {m : Memory} (hx : x < size)
    (hm : Memory.wf size m = true) : Memory.wf size (Memory.write m x v) = true :=
  Memory.write_wfFrom hx (Nat.zero_le _) hm

theorem Memory.read_put {size x y : Nat} {v : Byte} {m : Memory}
    (hm : Memory.wfFrom size (x + 1) m = true) :
    Memory.read (Memory.put x v m) y = if x = y then v else Memory.read m y := by
  unfold Memory.put
  by_cases hxy : x = y
  · subst hxy
    split
    · rename_i hv
      rw [Memory.read_below (Nat.lt_succ_self _) hm, if_pos rfl, hv]
    · rw [Memory.read_cons]
  · rw [if_neg hxy]
    split
    · rfl
    · rw [Memory.read_cons, if_neg hxy]

theorem Memory.read_write_from {size x y : Nat} {v : Byte} :
    ∀ {m : Memory} {lo : Nat}, Memory.wfFrom size lo m = true →
      Memory.read (Memory.write m x v) y = if x = y then v else Memory.read m y
  | [], _, _ => by
    simp only [Memory.write]
    exact Memory.read_put (size := 0) rfl
  | (a, w) :: m, lo, hm => by
    obtain ⟨h1, h2, h3, h4⟩ := Memory.wfFrom_cons.1 hm
    simp only [Memory.write]
    split
    · exact Memory.read_put (Memory.wfFrom_cons.2 ⟨by omega, h2, h3, h4⟩)
    · split
      · rename_i hxa
        subst hxa
        rw [Memory.read_put h4, Memory.read_cons]
        split <;> simp_all
      · rename_i hxa
        rw [Memory.read_cons, Memory.read_cons, Memory.read_write_from h4]
        by_cases hay : a = y
        · have : x ≠ y := by omega
          simp [hay, this]
        · simp [hay]

/-- What a read gives after a write: the byte written at its address, the byte of before anywhere
else. -/
theorem Memory.read_write {size x y : Nat} {v : Byte} {m : Memory} (hm : Memory.wf size m = true) :
    Memory.read (Memory.write m x v) y = if x = y then v else Memory.read m y :=
  Memory.read_write_from hm

/-- `MemWrite` keeps the canonical form of the physical memory. -/
theorem memWrite_wf {b : Block} (h : Memory.wf PM_SIZE b.pm = true) (pa : PhysAddr) (v : Byte) :
    Memory.wf PM_SIZE (memWrite b pa v).pm = true :=
  Memory.write_wf pa.isLt h

/-- `MemRead` after `MemWrite`. -/
theorem memRead_memWrite {b : Block} (h : Memory.wf PM_SIZE b.pm = true) (pa qa : PhysAddr)
    (v : Byte) : memRead (memWrite b pa v) qa = if pa = qa then v else memRead b qa := by
  simp only [memRead, memWrite_pm, Memory.read_write h, BitVec.toNat_inj]

theorem memRead_congr {b c : Block} (h : b.pm = c.pm) (pa : PhysAddr) :
    memRead b pa = memRead c pa := by simp only [memRead, h]

@[simp] theorem memRead_reset (p : Policy) (pa : PhysAddr) :
    memRead (Block.reset p) pa = UNLISTED_BYTE := rfl

/-- Canonical memories that read alike at every address are equal. -/
theorem Memory.ext_of_read {size : Nat} : ∀ {m n : Memory} {lo : Nat},
    Memory.wfFrom size lo m = true → Memory.wfFrom size lo n = true →
      (∀ x, Memory.read m x = Memory.read n x) → m = n
  | [], [], _, _, _, _ => rfl
  | [], (a, v) :: n, _, _, hn, h => by
    have h3 := (Memory.wfFrom_cons.1 hn).2.2.1
    have := h a
    simp [Memory.read_cons] at this
    exact absurd this.symm h3
  | (a, v) :: m, [], _, hm, _, h => by
    have h3 := (Memory.wfFrom_cons.1 hm).2.2.1
    have := h a
    simp [Memory.read_cons] at this
    exact absurd this h3
  | (a, v) :: m, (c, w) :: n, lo, hm, hn, h => by
    obtain ⟨-, -, hv, hm'⟩ := Memory.wfFrom_cons.1 hm
    obtain ⟨-, -, hw, hn'⟩ := Memory.wfFrom_cons.1 hn
    have hac : a = c := by
      rcases Nat.lt_trichotomy a c with hlt | heq | hgt
      · have := h a
        rw [Memory.read_cons, if_pos rfl, Memory.read_cons, if_neg (by omega),
          Memory.read_below (by omega) hn'] at this
        exact absurd this hv
      · exact heq
      · have := h c
        rw [Memory.read_cons, if_neg (by omega), Memory.read_below (by omega) hm',
          Memory.read_cons, if_pos rfl] at this
        exact absurd this.symm hw
    subst hac
    have hvw : v = w := by simpa [Memory.read_cons] using h a
    subst hvw
    have hmn : ∀ x, Memory.read m x = Memory.read n x := by
      intro x
      by_cases hx : a = x
      · subst hx
        rw [Memory.read_below (Nat.lt_succ_self _) hm', Memory.read_below (Nat.lt_succ_self _) hn']
      · simpa [Memory.read_cons, hx] using h x
    rw [Memory.ext_of_read hm' hn' hmn]

end Sys2Proof.Machine
end

