-- ==== Sys2Proof/Laws/Operands.lean ====
section
/-! SUPPORT. Addresses taken apart and put together (20_memory.md R52, 30_encoding.md R84, R85). -/

namespace Sys2Proof.Machine

open Config

/-- The frame of a physical address. -/
def frameOf (pa : PhysAddr) : FrameNo := pa.extractLsb' OFFSET_BITS FRAME_BITS

/-- The offset of a physical address. -/
def physOffset (pa : PhysAddr) : Offset := pa.extractLsb' 0 OFFSET_BITS

@[simp] theorem frameOf_physAddr (f : FrameNo) (o : Offset) : frameOf (physAddr f o) = f := by
  unfold frameOf physAddr
  ext i hi
  rw [BitVec.getElem_extractLsb', BitVec.getLsbD_append, if_neg (by omega)]
  simp [BitVec.getLsbD_eq_getElem hi]

@[simp] theorem physOffset_physAddr (f : FrameNo) (o : Offset) :
    physOffset (physAddr f o) = o := by
  unfold physOffset physAddr
  ext i hi
  rw [BitVec.getElem_extractLsb', BitVec.getLsbD_append, if_pos (by omega)]
  simp [hi]

/-- A physical address is its frame above its offset. -/
theorem physAddr_frameOf_physOffset (pa : PhysAddr) : physAddr (frameOf pa) (physOffset pa) = pa := by
  unfold physAddr frameOf physOffset
  ext i hi
  simp

theorem physAddr_inj {f g : FrameNo} {o q : Offset} :
    physAddr f o = physAddr g q ↔ f = g ∧ o = q := by
  constructor
  · intro h
    exact ⟨by simpa using congrArg frameOf h, by simpa using congrArg physOffset h⟩
  · rintro ⟨rfl, rfl⟩
    rfl

/-- A vector on top of one of ten bits, as a number. -/
theorem append_offset_toNat {w : Nat} (x : BitVec w) (o : Offset) :
    (x ++ o).toNat = x.toNat * 1024 + o.toNat := by
  rw [BitVec.toNat_append, Nat.shiftLeft_eq, Nat.mul_comm x.toNat, Nat.mul_comm x.toNat,
    ← Nat.two_pow_add_eq_or_of_lt o.isLt]
  rfl

/-- A physical address, as a number (R52). -/
theorem physAddr_toNat (f : FrameNo) (o : Offset) :
    (physAddr f o).toNat = f.toNat * 1024 + o.toNat := append_offset_toNat f o

/-- The backing-store address of a page's byte, as a number (R51, R149). -/
theorem backAddr_toNat (p : Vpn) (o : Offset) :
    (backAddr p o).toNat = p.toNat * 1024 + o.toNat := append_offset_toNat p o

/-- The bits of a virtual address that take part in translation, as a number (R51). -/
theorem usedBits_toNat (va : Va) : (usedBits va).toNat = va.toNat % 1048576 := by
  simp only [usedBits, BitVec.extractLsb'_toNat, Nat.shiftRight_zero]
  rfl

/-- The offset of a virtual address, as a number (R84). -/
theorem offsetOf_toNat (va : Va) : (offsetOf va).toNat = va.toNat % 1024 := by
  simp only [offsetOf, BitVec.extractLsb'_toNat, Nat.shiftRight_zero]
  rfl

/-- The page number of a virtual address, as a number (R84). -/
theorem vpnOf_toNat (va : Va) : (vpnOf va).toNat = va.toNat / 1024 % 1024 := by
  simp only [vpnOf, BitVec.extractLsb'_toNat, Nat.shiftRight_eq_div_pow]
  rfl

/-- Virtual addresses with the same low 20 bits have the same page number and offset (R51). -/
theorem vpnOf_offsetOf_congr {va va' : Va} (h : va.toNat % 1048576 = va'.toNat % 1048576) :
    vpnOf va = vpnOf va' ∧ offsetOf va = offsetOf va' := by
  constructor
  · apply BitVec.eq_of_toNat_eq
    rw [vpnOf_toNat, vpnOf_toNat]
    omega
  · apply BitVec.eq_of_toNat_eq
    rw [offsetOf_toNat, offsetOf_toNat]
    omega

/-- The used bits of a virtual address are its page number above its offset (R85). -/
theorem backAddr_vpnOf_offsetOf (va : Va) : backAddr (vpnOf va) (offsetOf va) = usedBits va := by
  unfold backAddr vpnOf offsetOf usedBits
  ext i hi
  rw [BitVec.getElem_append, BitVec.getElem_extractLsb']
  split
  · simp
  · rw [BitVec.getElem_extractLsb']
    congr 1
    omega

end Sys2Proof.Machine
end

