-- ==== Sys2Proof/Laws/Tlb.lean ====
section
/-! SUPPORT. What the TLB's operations do (41_tlb.md R101, R104, R106). -/

namespace Sys2Proof.Machine

open Config

section tlbInsert
variable (b : Block) (p : Vpn) (f : FrameNo)

@[simp] theorem tlbInsert_policy : (tlbInsert b p f).policy = b.policy := rfl
@[simp] theorem tlbInsert_pt : (tlbInsert b p f).pt = b.pt := rfl
@[simp] theorem tlbInsert_ts : (tlbInsert b p f).ts = b.ts := rfl
@[simp] theorem tlbInsert_allocPtr : (tlbInsert b p f).allocPtr = b.allocPtr := rfl
@[simp] theorem tlbInsert_full : (tlbInsert b p f).full = b.full := rfl
@[simp] theorem tlbInsert_pm : (tlbInsert b p f).pm = b.pm := rfl
@[simp] theorem tlbInsert_total : (tlbInsert b p f).total = b.total := rfl
@[simp] theorem tlbInsert_faults : (tlbInsert b p f).faults = b.faults := rfl
@[simp] theorem tlbInsert_hits : (tlbInsert b p f).hits = b.hits := rfl
@[simp] theorem tlbInsert_err : (tlbInsert b p f).err = b.err := rfl
end tlbInsert

section tlbInvalidate
variable (b : Block) (p : Vpn)

@[simp] theorem tlbInvalidate_policy : (tlbInvalidate b p).policy = b.policy := rfl
@[simp] theorem tlbInvalidate_tlbPtr : (tlbInvalidate b p).tlbPtr = b.tlbPtr := rfl
@[simp] theorem tlbInvalidate_pt : (tlbInvalidate b p).pt = b.pt := rfl
@[simp] theorem tlbInvalidate_ts : (tlbInvalidate b p).ts = b.ts := rfl
@[simp] theorem tlbInvalidate_allocPtr : (tlbInvalidate b p).allocPtr = b.allocPtr := rfl
@[simp] theorem tlbInvalidate_full : (tlbInvalidate b p).full = b.full := rfl
@[simp] theorem tlbInvalidate_pm : (tlbInvalidate b p).pm = b.pm := rfl
@[simp] theorem tlbInvalidate_total : (tlbInvalidate b p).total = b.total := rfl
@[simp] theorem tlbInvalidate_faults : (tlbInvalidate b p).faults = b.faults := rfl
@[simp] theorem tlbInvalidate_hits : (tlbInvalidate b p).hits = b.hits := rfl
@[simp] theorem tlbInvalidate_err : (tlbInvalidate b p).err = b.err := rfl
end tlbInvalidate

theorem TlbSlot.holds_iff (e : TlbSlot) (p : Vpn) :
    e.holds p = true ↔ e.valid = true ∧ e.vpn = p := by
  simp [TlbSlot.holds]

/-- A number below 16 as a slot index. -/
theorem Block.slot_ofNat (b : Block) {i : Nat} (h : i < TLB_SIZE) :
    b.slot (BitVec.ofNat TLB_PTR_BITS i) = b.tlb[i] := by
  simp only [Block.slot, BitVec.toNat_ofNat]
  congr 1
  exact Nat.mod_eq_of_lt h

/-- A lookup finds a frame exactly where some slot holds the page with that frame, and no lower slot
holds the page (R101). -/
theorem tlbLookup_eq_some_iff (b : Block) (p : Vpn) (f : FrameNo) :
    tlbLookup b p = some f ↔
      ∃ i, (b.slot i).holds p = true ∧ (b.slot i).frame = f ∧
        ∀ j, j.toNat < i.toNat → (b.slot j).holds p = false := by
  simp only [tlbLookup, Option.map_eq_some_iff, List.find?_eq_some_iff_getElem,
    Vector.getElem_toList, Vector.length_toList]
  constructor
  · rintro ⟨e, ⟨he, i, hi, rfl, hlt⟩, rfl⟩
    have hi' : i % 2 ^ TLB_PTR_BITS = i := Nat.mod_eq_of_lt hi
    refine ⟨BitVec.ofNat _ i, ?_, ?_, ?_⟩
    · rwa [b.slot_ofNat hi]
    · rw [b.slot_ofNat hi]
    · intro j hj
      rw [BitVec.toNat_ofNat, hi'] at hj
      simpa [Block.slot] using hlt j.toNat hj
  · rintro ⟨i, he, rfl, hlt⟩
    refine ⟨_, ⟨he, i.toNat, i.isLt, rfl, ?_⟩, rfl⟩
    intro j hj
    have hj' : j < TLB_SIZE := Nat.lt_trans hj i.isLt
    have := hlt (BitVec.ofNat _ j)
      (by rw [BitVec.toNat_ofNat, Nat.mod_eq_of_lt (show j < 2 ^ TLB_PTR_BITS from hj')]; exact hj)
    rw [b.slot_ofNat hj'] at this
    simpa using this

/-- A lookup misses exactly where no slot holds the page (R101). -/
theorem tlbLookup_eq_none_iff (b : Block) (p : Vpn) :
    tlbLookup b p = none ↔ ∀ i, (b.slot i).holds p = false := by
  simp only [tlbLookup, Option.map_eq_none_iff, List.find?_eq_none, Bool.not_eq_true]
  constructor
  · intro h i
    exact h _ (by simp [Block.slot])
  · intro h e he
    obtain ⟨i, hi, rfl⟩ := List.mem_iff_getElem.1 he
    have hi' : i < TLB_SIZE := by simpa using hi
    have := h (BitVec.ofNat _ i)
    rw [b.slot_ofNat hi'] at this
    simpa using this

theorem tlbLookup_congr {b c : Block} (h : b.tlb = c.tlb) (p : Vpn) :
    tlbLookup b p = tlbLookup c p := by simp only [tlbLookup, h]

theorem tlbLookup_reset (p : Policy) (q : Vpn) : tlbLookup (Block.reset p) q = none := by
  simp [tlbLookup_eq_none_iff, TlbSlot.holds]

/-- An insert writes the slot at the pointer and no other (R104). -/
theorem tlbInsert_slot (b : Block) (p : Vpn) (f : FrameNo) (j : TlbIndex) :
    (tlbInsert b p f).slot j = if b.tlbPtr = j then ⟨true, p, f⟩ else b.slot j :=
  b.setSlot_slot b.tlbPtr j ⟨true, p, f⟩

theorem tlbInsert_tlb (b : Block) (p : Vpn) (f : FrameNo) :
    (tlbInsert b p f).tlb = b.tlb.set b.tlbPtr.toNat ⟨true, p, f⟩ b.tlbPtr.isLt := rfl

@[simp] theorem tlbInsert_tlbPtr (b : Block) (p : Vpn) (f : FrameNo) :
    (tlbInsert b p f).tlbPtr = b.tlbPtr + 1 := rfl

/-- An invalidate clears the valid bit of the slots that hold the page, and nothing else (R106). -/
theorem tlbInvalidate_slot (b : Block) (p : Vpn) (i : TlbIndex) :
    (tlbInvalidate b p).slot i =
      if (b.slot i).holds p then { b.slot i with valid := false } else b.slot i := by
  simp only [tlbInvalidate, Block.slot, Vector.getElem_map]
  rfl

end Sys2Proof.Machine
end

