-- ==== Sys2Proof/Laws/PageTable.lean ====
section
/-! SUPPORT. What the page table's operations do (42_page_table.md R121, R123, R125, R126). -/

namespace Sys2Proof.Machine

open Config

section ptBind
variable (b : Block) (p : Vpn) (f : FrameNo)

@[simp] theorem ptBind_policy : (ptBind b p f).policy = b.policy := rfl
@[simp] theorem ptBind_tlb : (ptBind b p f).tlb = b.tlb := rfl
@[simp] theorem ptBind_tlbPtr : (ptBind b p f).tlbPtr = b.tlbPtr := rfl
@[simp] theorem ptBind_ts : (ptBind b p f).ts = b.ts := rfl
@[simp] theorem ptBind_allocPtr : (ptBind b p f).allocPtr = b.allocPtr := rfl
@[simp] theorem ptBind_full : (ptBind b p f).full = b.full := rfl
@[simp] theorem ptBind_pm : (ptBind b p f).pm = b.pm := rfl
@[simp] theorem ptBind_total : (ptBind b p f).total = b.total := rfl
@[simp] theorem ptBind_faults : (ptBind b p f).faults = b.faults := rfl
@[simp] theorem ptBind_hits : (ptBind b p f).hits = b.hits := rfl
@[simp] theorem ptBind_err : (ptBind b p f).err = b.err := rfl
end ptBind

theorem Block.owns_iff (b : Block) (p : Vpn) (f : FrameNo) :
    b.owns p f ↔ (b.ptEntry p).valid = true ∧ (b.ptEntry p).frame = f := by
  cases h : b.ptEntry p
  simp [Block.owns, h]

theorem Block.owns_congr {b c : Block} (h : b.pt = c.pt) (p : Vpn) (f : FrameNo) :
    b.owns p f ↔ c.owns p f := by simp only [Block.owns, Block.ptEntry_congr h]

theorem Block.bound_congr {b c : Block} (h : b.pt = c.pt) (f : FrameNo) : b.bound f ↔ c.bound f := by
  simp only [Block.bound, Block.owns_congr h]

/-- A page that owns a frame owns no other. -/
theorem Block.owns_frame_unique {b : Block} {p : Vpn} {f g : FrameNo} (hf : b.owns p f)
    (hg : b.owns p g) : f = g := by
  rw [Block.owns_iff] at hf hg
  exact hf.2.symm.trans hg.2

theorem ptLookup_eq_some_iff (b : Block) (p : Vpn) (f : FrameNo) :
    ptLookup b p = some f ↔ b.owns p f := by
  simp [ptLookup, Block.owns_iff]

theorem ptLookup_eq_none_iff (b : Block) (p : Vpn) :
    ptLookup b p = none ↔ (b.ptEntry p).valid = false := by
  simp [ptLookup]

theorem ptLookup_congr {b c : Block} (h : b.pt = c.pt) (p : Vpn) : ptLookup b p = ptLookup c p := by
  simp only [ptLookup, Block.ptEntry_congr h]

/-- A reverse lookup finds the lowest page that owns the frame (R123). -/
theorem ptReverseLookup_eq_some_iff (b : Block) (f : FrameNo) (p : Vpn) :
    ptReverseLookup b f = some p ↔ b.owns p f ∧ ∀ q, q.toNat < p.toNat → ¬ b.owns q f := by
  rw [ptReverseLookup, find_ascending_iff mem_allVpns allVpns_ascending]
  simp [Block.owns_iff]

/-- A reverse lookup finds nothing exactly where no page owns the frame (R123). -/
theorem ptReverseLookup_eq_none_iff (b : Block) (f : FrameNo) :
    ptReverseLookup b f = none ↔ ¬ b.bound f := by
  simp [ptReverseLookup, List.find?_eq_none, Block.bound, Block.owns_iff]

theorem ptReverseLookup_congr {b c : Block} (h : b.pt = c.pt) (f : FrameNo) :
    ptReverseLookup b f = ptReverseLookup c f := by
  simp only [ptReverseLookup, Block.ptEntry_congr h]

/-- Who owns what after a bind (R125). -/
theorem ptBind_owns (b : Block) (p q : Vpn) (f g : FrameNo) :
    (ptBind b p f).owns q g ↔ (p = q ∧ f = g) ∨ (p ≠ q ∧ b.owns q g) := by
  simp only [Block.owns, ptBind, Block.setPtEntry_ptEntry]
  split <;> simp_all

theorem ptBind_ptEntry (b : Block) (p q : Vpn) (f : FrameNo) :
    (ptBind b p f).ptEntry q = if p = q then ⟨true, f⟩ else b.ptEntry q :=
  b.setPtEntry_ptEntry p q _

/-- An unbind writes the page's entry, and the TLB only in the variant (R126). -/
theorem ptUnbind_false (b : Block) (p : Vpn) :
    ptUnbind false b p = b.setPtEntry p { b.ptEntry p with valid := false } := rfl

theorem ptUnbind_true (b : Block) (p : Vpn) :
    ptUnbind true b p = tlbInvalidate (b.setPtEntry p { b.ptEntry p with valid := false }) p := rfl

theorem ptUnbind_pt (inv : Bool) (b : Block) (p : Vpn) :
    (ptUnbind inv b p).pt = (b.setPtEntry p { b.ptEntry p with valid := false }).pt := by
  cases inv <;> rfl

theorem ptUnbind_ptEntry (inv : Bool) (b : Block) (p q : Vpn) :
    (ptUnbind inv b p).ptEntry q =
      if p = q then { b.ptEntry p with valid := false } else b.ptEntry q := by
  rw [Block.ptEntry_congr (ptUnbind_pt inv b p), Block.setPtEntry_ptEntry]

/-- Who owns what after an unbind (R126). -/
theorem ptUnbind_owns (inv : Bool) (b : Block) (p q : Vpn) (g : FrameNo) :
    (ptUnbind inv b p).owns q g ↔ p ≠ q ∧ b.owns q g := by
  simp only [Block.owns, ptUnbind_ptEntry]
  split <;> simp_all

section ptUnbind
variable (inv : Bool) (b : Block) (p : Vpn)
@[simp] theorem ptUnbind_policy : (ptUnbind inv b p).policy = b.policy := by cases inv <;> rfl
@[simp] theorem ptUnbind_tlbPtr : (ptUnbind inv b p).tlbPtr = b.tlbPtr := by cases inv <;> rfl
@[simp] theorem ptUnbind_ts : (ptUnbind inv b p).ts = b.ts := by cases inv <;> rfl
@[simp] theorem ptUnbind_allocPtr : (ptUnbind inv b p).allocPtr = b.allocPtr := by cases inv <;> rfl
@[simp] theorem ptUnbind_full : (ptUnbind inv b p).full = b.full := by cases inv <;> rfl
@[simp] theorem ptUnbind_pm : (ptUnbind inv b p).pm = b.pm := by cases inv <;> rfl
@[simp] theorem ptUnbind_total : (ptUnbind inv b p).total = b.total := by cases inv <;> rfl
@[simp] theorem ptUnbind_faults : (ptUnbind inv b p).faults = b.faults := by cases inv <;> rfl
@[simp] theorem ptUnbind_hits : (ptUnbind inv b p).hits = b.hits := by cases inv <;> rfl
@[simp] theorem ptUnbind_err : (ptUnbind inv b p).err = b.err := by cases inv <;> rfl
end ptUnbind

/-- The slots after an unbind: as before, but for the page's own slots in the variant (R126). -/
theorem ptUnbind_slot (inv : Bool) (b : Block) (p : Vpn) (i : TlbIndex) :
    (ptUnbind inv b p).slot i =
      if inv && (b.slot i).holds p then { b.slot i with valid := false } else b.slot i := by
  cases inv
  · rfl
  · rw [ptUnbind_true, tlbInvalidate_slot]
    rfl

end Sys2Proof.Machine
end

