-- ==== Sys2Proof/Laws/Allocator.lean ====
section
/-! SUPPORT. What the frame allocator does (43_frame_allocator.md R141, R142, R145, R146, R149). -/

namespace Sys2Proof.Machine

open Config

section advanceCursor
variable (b : Block)

@[simp] theorem advanceCursor_policy : (advanceCursor b).policy = b.policy := rfl
@[simp] theorem advanceCursor_tlb : (advanceCursor b).tlb = b.tlb := rfl
@[simp] theorem advanceCursor_tlbPtr : (advanceCursor b).tlbPtr = b.tlbPtr := rfl
@[simp] theorem advanceCursor_pt : (advanceCursor b).pt = b.pt := rfl
@[simp] theorem advanceCursor_ts : (advanceCursor b).ts = b.ts := rfl
@[simp] theorem advanceCursor_pm : (advanceCursor b).pm = b.pm := rfl
@[simp] theorem advanceCursor_total : (advanceCursor b).total = b.total := rfl
@[simp] theorem advanceCursor_faults : (advanceCursor b).faults = b.faults := rfl
@[simp] theorem advanceCursor_hits : (advanceCursor b).hits = b.hits := rfl
@[simp] theorem advanceCursor_err : (advanceCursor b).err = b.err := rfl
end advanceCursor

@[simp] theorem advanceCursor_allocPtr (b : Block) :
    (advanceCursor b).allocPtr = b.allocPtr + 1 := rfl

/-- `FULL` after the cursor's advance (R142). -/
theorem advanceCursor_full (b : Block) :
    (advanceCursor b).full = true ↔ b.full = true ∨ b.allocPtr.toNat + 1 = N_FRAMES := by
  have h : b.allocPtr = BitVec.allOnes FRAME_BITS ↔ b.allocPtr.toNat + 1 = N_FRAMES := by
    rw [← BitVec.toNat_inj, BitVec.toNat_allOnes]
    show _ = 255 ↔ _ + 1 = 256
    omega
  simp only [advanceCursor, h]
  split <;> simp_all

theorem ptReverseLookup_advanceCursor (b : Block) (f : FrameNo) :
    ptReverseLookup (advanceCursor b) f = ptReverseLookup b f :=
  ptReverseLookup_congr rfl f

/-- FIFO eviction, case by case (R145). -/
theorem fifoEvict_eq_ok_iff (inv : Bool) (b c : Block) (f : FrameNo) :
    fifoEvict inv b = .ok (c, f) ↔
      ∃ q, ptReverseLookup b f = some q ∧ f = b.allocPtr ∧ c = ptUnbind inv (advanceCursor b) q := by
  unfold fifoEvict
  rw [ptReverseLookup_advanceCursor]
  cases h : ptReverseLookup b b.allocPtr with
  | none =>
    simp only [reduceCtorEq, false_iff]
    rintro ⟨q, hq, rfl, -⟩
    simp [h] at hq
  | some q =>
    simp only [Except.ok.injEq, Prod.mk.injEq]
    constructor
    · rintro ⟨rfl, rfl⟩
      exact ⟨q, h, rfl, rfl⟩
    · rintro ⟨q', hq, rfl, rfl⟩
      simp_all

theorem fifoEvict_eq_error_iff (inv : Bool) (b : Block) (e : BlockFault) :
    fifoEvict inv b = .error e ↔ e = .noFrameOwner ∧ ¬ b.bound b.allocPtr := by
  unfold fifoEvict
  rw [ptReverseLookup_advanceCursor, ← ptReverseLookup_eq_none_iff]
  cases h : ptReverseLookup b b.allocPtr <;> simp [eq_comm]

/-- The scan of LRU eviction after a prefix of the pages: none resident so far, or the resident page
with the smallest timestamp so far, the lowest of several. -/
theorem lruScan_spec (b : Block) (l : List Vpn)
    (hl : l.Pairwise fun p q => p.toNat < q.toNat) :
    (l.foldl (lruBetter b) none = none ∧ ∀ p ∈ l, ¬ b.resident p) ∨
    ∃ v, l.foldl (lruBetter b) none = some v ∧ v ∈ l ∧ b.resident v ∧
      ∀ p ∈ l, b.resident p → p ≠ v →
        b.stamp v < b.stamp p ∨ (b.stamp v = b.stamp p ∧ v.toNat < p.toNat) := by
  induction l using List.reverseRecOn with
  | nil => simp
  | append_singleton l p ih =>
    obtain ⟨hl1, -, hlp⟩ := List.pairwise_append.1 hl
    have hlp : ∀ q ∈ l, q.toNat < p.toNat := fun q hq => hlp q hq p (by simp)
    rw [List.foldl_append, List.foldl_cons, List.foldl_nil]
    rcases ih hl1 with ⟨hn, hr⟩ | ⟨v, hv, hvl, hvr, hmin⟩
    · rw [hn]
      by_cases hp : b.resident p
      · right
        refine ⟨p, by simp [lruBetter, show (b.ptEntry p).valid = true from hp], by simp, hp, ?_⟩
        intro q hq hqr hqp
        rcases List.mem_append.1 hq with hq | hq
        · exact absurd hqr (hr q hq)
        · exact absurd (by simpa using hq) hqp
      · left
        refine ⟨by simp [lruBetter, show (b.ptEntry p).valid = false by simpa [Block.resident] using hp], ?_⟩
        intro q hq
        rcases List.mem_append.1 hq with hq | hq
        · exact hr q hq
        · rw [List.mem_singleton.1 hq]
          exact hp
    · rw [hv]
      right
      by_cases hp : b.resident p
      · have hp' : (b.ptEntry p).valid = true := hp
        by_cases hlt : b.stamp p < b.stamp v
        · refine ⟨p, by simp [lruBetter, hp', hlt], by simp, hp, ?_⟩
          intro q hq hqr hqp
          rcases List.mem_append.1 hq with hq | hq
          · by_cases hqv : q = v
            · exact .inl (hqv ▸ hlt)
            · rcases hmin q hq hqr hqv with h | ⟨h, -⟩
              · exact .inl (BitVec.lt_trans hlt h)
              · exact .inl (h ▸ hlt)
          · exact absurd (by simpa using hq) hqp
        · refine ⟨v, by simp [lruBetter, hp', hlt], by simp [hvl], hvr, ?_⟩
          intro q hq hqr hqv
          rcases List.mem_append.1 hq with hq | hq
          · exact hmin q hq hqr hqv
          · rw [List.mem_singleton.1 hq]
            rw [BitVec.not_lt] at hlt
            rcases Nat.lt_or_ge (b.stamp v).toNat (b.stamp p).toNat with h | h
            · exact .inl h
            · exact .inr ⟨BitVec.toNat_inj.1 (Nat.le_antisymm hlt h), hlp v hvl⟩
      · refine ⟨v, by simp [lruBetter, show (b.ptEntry p).valid = false by simpa [Block.resident] using hp],
          by simp [hvl], hvr, ?_⟩
        intro q hq hqr hqv
        rcases List.mem_append.1 hq with hq | hq
        · exact hmin q hq hqr hqv
        · exact absurd (List.mem_singleton.1 hq ▸ hqr) hp

/-- The victim of LRU eviction: the resident page with the smallest timestamp, the lowest of several
(R146). -/
theorem lruVictim_spec (b : Block) :
    (lruVictim b = none ∧ ∀ p, ¬ b.resident p) ∨
    ∃ v, lruVictim b = some v ∧ b.resident v ∧
      ∀ p, b.resident p → p ≠ v →
        b.stamp v < b.stamp p ∨ (b.stamp v = b.stamp p ∧ v.toNat < p.toNat) := by
  rcases lruScan_spec b allVpns allVpns_ascending with ⟨h, hr⟩ | ⟨v, h, -, hr, hm⟩
  · exact .inl ⟨h, fun p => hr p (mem_allVpns p)⟩
  · exact .inr ⟨v, h, hr, fun p => hm p (mem_allVpns p)⟩

/-- LRU eviction, case by case (R146). -/
theorem lruEvict_eq_ok_iff (inv : Bool) (b c : Block) (f : FrameNo) :
    lruEvict inv b = .ok (c, f) ↔
      ∃ v, lruVictim b = some v ∧ f = (b.ptEntry v).frame ∧
        c = ptUnbind inv (advanceCursor b) v := by
  unfold lruEvict
  cases h : lruVictim b with
  | none => simp
  | some v =>
    simp only [Except.ok.injEq, Prod.mk.injEq, Option.some.injEq]
    constructor
    · rintro ⟨rfl, rfl⟩
      exact ⟨v, rfl, rfl, rfl⟩
    · rintro ⟨v, rfl, rfl, rfl⟩
      exact ⟨rfl, rfl⟩

theorem lruEvict_eq_error_iff (inv : Bool) (b : Block) (e : BlockFault) :
    lruEvict inv b = .error e ↔ e = .noFrameOwner ∧ ∀ p, ¬ b.resident p := by
  unfold lruEvict
  rcases lruVictim_spec b with ⟨h, hr⟩ | ⟨v, h, hr, -⟩
  · simp only [h, Except.error.injEq]
    exact ⟨fun he => ⟨he.symm, hr⟩, fun he => he.1.symm⟩
  · simp only [h, reduceCtorEq, false_iff]
    rintro ⟨-, hn⟩
    exact hn v hr

/-- Everything frame selection can do (R141): allocate the next never-used frame, or unbind the one
victim and give its frame. -/
theorem selectFrame_ok {inv : Bool} {b c : Block} {f : FrameNo} (h : selectFrame inv b = .ok (c, f)) :
    (b.full = false ∧ f = b.allocPtr ∧ c = advanceCursor b) ∨
    (b.full = true ∧ ∃ v, b.owns v f ∧ c = ptUnbind inv (advanceCursor b) v ∧
      ((b.policy = .fifo ∧ f = b.allocPtr ∧ ptReverseLookup b f = some v) ∨
       (b.policy = .lru ∧ lruVictim b = some v))) := by
  unfold selectFrame at h
  split at h
  · rename_i hfull
    refine .inr ⟨hfull, ?_⟩
    split at h
    · rename_i hp
      obtain ⟨q, hq, rfl, rfl⟩ := (fifoEvict_eq_ok_iff ..).1 h
      exact ⟨q, ((ptReverseLookup_eq_some_iff ..).1 hq).1, rfl, .inl ⟨hp, rfl, hq⟩⟩
    · rename_i hp
      obtain ⟨v, hv, rfl, rfl⟩ := (lruEvict_eq_ok_iff ..).1 h
      refine ⟨v, ?_, rfl, .inr ⟨hp, hv⟩⟩
      rcases lruVictim_spec b with ⟨h', -⟩ | ⟨w, h', hr, -⟩
      · simp [hv] at h'
      · rw [hv] at h'
        cases h'
        exact (Block.owns_iff ..).2 ⟨hr, rfl⟩
  · rename_i hfull
    cases h
    exact .inl ⟨by simpa using hfull, rfl, rfl⟩

/-- When frame selection fails (R205): the frames are exhausted, and no page owns the cursor's frame
(FIFO) or no page is resident (LRU). -/
theorem selectFrame_eq_error_iff (inv : Bool) (b : Block) (e : BlockFault) :
    selectFrame inv b = .error e ↔
      e = .noFrameOwner ∧ b.full = true ∧
        ((b.policy = .fifo ∧ ¬ b.bound b.allocPtr) ∨ (b.policy = .lru ∧ ∀ p, ¬ b.resident p)) := by
  unfold selectFrame
  cases hf : b.full <;> cases hp : b.policy <;>
    simp [fifoEvict_eq_error_iff, lruEvict_eq_error_iff]

/-- A page load over some offsets, one after the other: the canonical form is kept, and each byte of
the frame at one of the offsets is the page's. -/
theorem loadBytes_spec (image : Memory) (p : Vpn) (f : FrameNo) :
    ∀ (l : List Offset) (b : Block), Memory.wf PM_SIZE b.pm = true →
      Memory.wf PM_SIZE (l.foldl (loadByte image p f) b).pm = true ∧
      ∀ g o, memRead (l.foldl (loadByte image p f) b) (physAddr g o) =
        if f = g ∧ o ∈ l then backingRead image (backAddr p o) else memRead b (physAddr g o)
  | [], b, h => ⟨h, by simp⟩
  | off :: l, b, h => by
    have h1 := memWrite_wf h (physAddr f off) (backingRead image (backAddr p off))
    obtain ⟨hw, hr⟩ := loadBytes_spec image p f l (loadByte image p f b off) h1
    refine ⟨hw, fun g o => ?_⟩
    rw [List.foldl_cons, hr]
    unfold loadByte
    simp only [memRead_memWrite h, physAddr_inj]
    simp only [List.mem_cons]
    by_cases hfg : f = g
    · by_cases hl : o ∈ l
      · rw [if_pos ⟨hfg, hl⟩, if_pos ⟨hfg, .inr hl⟩]
      · by_cases ho : off = o
        · rw [if_neg (fun h => hl h.2), if_pos ⟨hfg, ho⟩, if_pos ⟨hfg, .inl ho.symm⟩, ho]
        · rw [if_neg (fun h => hl h.2), if_neg (fun h => ho h.2),
            if_neg (fun h => h.2.elim (fun h => ho h.symm) hl)]
    · rw [if_neg (fun h => hfg h.1), if_neg (fun h => hfg h.1), if_neg (fun h => hfg h.1)]

/-- A page load keeps the canonical form of the physical memory. -/
theorem loadPage_wf {image : Memory} {b : Block} {p : Vpn} {f : FrameNo}
    (h : Memory.wf PM_SIZE b.pm = true) : Memory.wf PM_SIZE (loadPage image b p f).pm = true :=
  (loadBytes_spec image p f allOffsets b h).1

/-- The physical memory after a page load: the frame holds the page, every other frame is as before
(R149). -/
theorem memRead_loadPage {image : Memory} {b : Block} {p : Vpn} {f : FrameNo}
    (h : Memory.wf PM_SIZE b.pm = true) (g : FrameNo) (o : Offset) :
    memRead (loadPage image b p f) (physAddr g o) =
      if f = g then backingRead image (backAddr p o) else memRead b (physAddr g o) := by
  have := (loadBytes_spec image p f allOffsets b h).2 g o
  simp only [mem_allOffsets, and_true] at this
  exact this

/-- A page load writes nothing but the physical memory (R149). -/
theorem loadPage_eq (image : Memory) (b : Block) (p : Vpn) (f : FrameNo) :
    loadPage image b p f = { b with pm := (loadPage image b p f).pm } := rfl

section loadPage
variable (image : Memory) (b : Block) (p : Vpn) (f : FrameNo)
@[simp] theorem loadPage_policy : (loadPage image b p f).policy = b.policy := rfl
@[simp] theorem loadPage_tlb : (loadPage image b p f).tlb = b.tlb := rfl
@[simp] theorem loadPage_tlbPtr : (loadPage image b p f).tlbPtr = b.tlbPtr := rfl
@[simp] theorem loadPage_pt : (loadPage image b p f).pt = b.pt := rfl
@[simp] theorem loadPage_ts : (loadPage image b p f).ts = b.ts := rfl
@[simp] theorem loadPage_allocPtr : (loadPage image b p f).allocPtr = b.allocPtr := rfl
@[simp] theorem loadPage_full : (loadPage image b p f).full = b.full := rfl
@[simp] theorem loadPage_total : (loadPage image b p f).total = b.total := rfl
@[simp] theorem loadPage_faults : (loadPage image b p f).faults = b.faults := rfl
@[simp] theorem loadPage_hits : (loadPage image b p f).hits = b.hits := rfl
@[simp] theorem loadPage_err : (loadPage image b p f).err = b.err := rfl
end loadPage

end Sys2Proof.Machine
end

