-- ==== Sys2Proof/Laws/Decode.lean ====
section
/-! SUPPORT. The fields of request words (30_encoding.md R81). -/

namespace Sys2Proof

open Config

@[simp] theorem commandField_append (c : Command) (o : Operand) :
    commandField (c ++ o : ReqWord) = c := by
  unfold commandField
  ext i hi
  rw [BitVec.getElem_extractLsb', BitVec.getLsbD_append, if_neg (by omega)]
  simp [BitVec.getLsbD_eq_getElem hi]

@[simp] theorem operandField_append (c : Command) (o : Operand) :
    operandField (c ++ o : ReqWord) = o := by
  unfold operandField
  ext i hi
  rw [BitVec.getElem_extractLsb', BitVec.getLsbD_append, if_pos (by omega)]
  simp [hi]

/-- A request word is its command above its operand. -/
theorem append_fields (w : ReqWord) : (commandField w ++ operandField w : ReqWord) = w := by
  ext i hi
  simp [commandField, operandField]

theorem commandField_encode (i : Instr) : commandField (encode i) = i.command :=
  commandField_append _ _

theorem operandField_encode (i : Instr) : operandField (encode i) = i.operand :=
  operandField_append _ _

theorem cmdReadStats_ne_cmdTranslate : cmdReadStats ≠ cmdTranslate := by decide

/-- The decoder answers a request exactly where the word's fields are that request's. -/
theorem decode_eq_instr_iff (w : ReqWord) (i : Instr) :
    decode w = .instr i ↔ commandField w = i.command ∧ operandField w = i.operand := by
  unfold decode
  split
  · rename_i h
    rw [h]
    cases i <;> simp [Instr.command, Instr.operand, cmdReadStats_ne_cmdTranslate.symm]
  · rename_i h
    split
    · rename_i h'
      rw [h']
      cases i <;> simp [Instr.command, Instr.operand, cmdReadStats_ne_cmdTranslate]
    · rename_i h'
      cases i <;> simp [Instr.command, h, h']

/-- The decoder answers that a command is reserved exactly where it is neither request's. -/
theorem decode_eq_reserved_iff (w : ReqWord) (c : Command) :
    decode w = .reserved c ↔
      commandField w = c ∧ c ≠ cmdTranslate ∧ c ≠ cmdReadStats := by
  unfold decode
  split
  · simp_all
  · split
    · simp_all
    · simp only [Decoded.reserved.injEq]
      exact ⟨fun h => ⟨h, h ▸ ‹_›, h ▸ ‹_›⟩, fun h => h.1⟩

end Sys2Proof
end

