-- ==== Sys2Proof/Laws/Pipeline.lean ====
section
/-! SUPPORT. What TRANSLATE does, case by case (44_pipeline.md R170 to R178). -/

namespace Sys2Proof.Machine

open Config

section touchStamp
variable (b : Block) (p : Vpn) (ord : Count)
@[simp] theorem touchStamp_policy : (touchStamp b p ord).policy = b.policy := rfl
@[simp] theorem touchStamp_tlb : (touchStamp b p ord).tlb = b.tlb := rfl
@[simp] theorem touchStamp_tlbPtr : (touchStamp b p ord).tlbPtr = b.tlbPtr := rfl
@[simp] theorem touchStamp_pt : (touchStamp b p ord).pt = b.pt := rfl
@[simp] theorem touchStamp_allocPtr : (touchStamp b p ord).allocPtr = b.allocPtr := rfl
@[simp] theorem touchStamp_full : (touchStamp b p ord).full = b.full := rfl
@[simp] theorem touchStamp_pm : (touchStamp b p ord).pm = b.pm := rfl
@[simp] theorem touchStamp_total : (touchStamp b p ord).total = b.total := rfl
@[simp] theorem touchStamp_faults : (touchStamp b p ord).faults = b.faults := rfl
@[simp] theorem touchStamp_hits : (touchStamp b p ord).hits = b.hits := rfl
@[simp] theorem touchStamp_err : (touchStamp b p ord).err = b.err := rfl
end touchStamp

/-- Under FIFO the timestamp update does nothing (R176). -/
theorem touchStamp_fifo {b : Block} (h : b.policy = .fifo) (p : Vpn) (ord : Count) :
    touchStamp b p ord = b := by
  cases b
  simp only at h
  subst h
  rfl

/-- Under LRU the timestamp update writes the page's timestamp (R176). -/
theorem touchStamp_lru {b : Block} (h : b.policy = .lru) (p : Vpn) (ord : Count) :
    touchStamp b p ord = b.setStamp p ord := by
  cases b
  simp only at h
  subst h
  rfl

/-- The timestamps after the update (R176). -/
theorem touchStamp_stamp (b : Block) (p q : Vpn) (ord : Count) :
    (touchStamp b p ord).stamp q = if b.policy = .lru ∧ p = q then ord else b.stamp q := by
  cases h : b.policy with
  | fifo => simp [touchStamp_fifo h]
  | lru => simp [touchStamp_lru h, Block.setStamp_stamp]

/-- The outcome is a TLB hit exactly where the lookup hits (R171). -/
theorem outcomeOf_eq_tlbHit_iff (b : Block) (p : Vpn) (f : FrameNo) :
    outcomeOf b p = .tlbHit f ↔ tlbLookup b p = some f := by
  unfold outcomeOf
  cases tlbLookup b p with
  | none => cases ptLookup b p <;> simp
  | some g => simp

/-- The outcome is a table hit exactly where the lookup misses and the page is mapped (R171). -/
theorem outcomeOf_eq_tableHit_iff (b : Block) (p : Vpn) (f : FrameNo) :
    outcomeOf b p = .tableHit f ↔ tlbLookup b p = none ∧ b.owns p f := by
  rw [← ptLookup_eq_some_iff]
  unfold outcomeOf
  cases tlbLookup b p with
  | none => cases ptLookup b p <;> simp
  | some g => simp

/-- The outcome is a fault exactly where both lookups miss (R171). -/
theorem outcomeOf_eq_pageFault_iff (b : Block) (p : Vpn) :
    outcomeOf b p = .pageFault ↔ tlbLookup b p = none ∧ (b.ptEntry p).valid = false := by
  rw [← ptLookup_eq_none_iff]
  unfold outcomeOf
  cases tlbLookup b p with
  | none => cases ptLookup b p <;> simp
  | some g => simp

/-- The outcome depends on the TLB and the page table alone. -/
theorem outcomeOf_congr {b c : Block} (ht : b.tlb = c.tlb) (hp : b.pt = c.pt) (p : Vpn) :
    outcomeOf b p = outcomeOf c p := by
  simp only [outcomeOf, tlbLookup_congr ht, ptLookup_congr hp]

@[simp] theorem outcomeOf_countRequest (b : Block) (p : Vpn) :
    outcomeOf (countRequest b) p = outcomeOf b p := outcomeOf_congr rfl rfl p

/-- The block after the fault path and CacheInsert, from the block that frame selection left (R175,
R178). -/
def afterFault (image : Memory) (ord : Count) (p : Vpn) (f : FrameNo) (b : Block) : Block :=
  tlbInsert (touchStamp (ptBind (loadPage image b p f) p f) p ord) p f

/-- Everything the pipeline can do when no block fault stops it (R170). -/
theorem resolve_ok {inv : Bool} {image : Memory} {ord : Count} {p : Vpn} {b c : Block} {f : FrameNo}
    (h : resolve inv image ord p b = .ok (c, f)) :
    (outcomeOf b p = .tlbHit f ∧ c = countHit b) ∨
    (outcomeOf b p = .tableHit f ∧ c = tlbInsert (touchStamp b p ord) p f) ∨
    (outcomeOf b p = .pageFault ∧ ∃ b', selectFrame inv (countFault b) = .ok (b', f) ∧
      c = afterFault image ord p f b') := by
  unfold resolve at h
  cases ho : outcomeOf b p with
  | tlbHit g =>
    rw [ho] at h
    cases h
    exact .inl ⟨rfl, rfl⟩
  | tableHit g =>
    rw [ho] at h
    cases h
    exact .inr (.inl ⟨rfl, rfl⟩)
  | pageFault =>
    refine .inr (.inr ⟨rfl, ?_⟩)
    simp only [ho, pageIn] at h
    cases hs : selectFrame inv (countFault b) with
    | error e => simp [hs] at h
    | ok r =>
      obtain ⟨b', g⟩ := r
      simp only [hs, Except.ok.injEq, Prod.mk.injEq] at h
      obtain ⟨rfl, rfl⟩ := h
      exact ⟨b', rfl, rfl⟩

/-- When a block fault stops the pipeline: in the Evict step of a fault (R205, R206). -/
theorem resolve_error {inv : Bool} {image : Memory} {ord : Count} {p : Vpn} {b : Block}
    {e : BlockFault} (h : resolve inv image ord p b = .error e) :
    outcomeOf b p = .pageFault ∧ selectFrame inv (countFault b) = .error e := by
  unfold resolve at h
  cases ho : outcomeOf b p with
  | tlbHit g => simp [ho] at h
  | tableHit g => simp [ho] at h
  | pageFault =>
    refine ⟨rfl, ?_⟩
    simp only [ho, pageIn] at h
    cases hs : selectFrame inv (countFault b) with
    | error e' => simpa [hs] using h
    | ok r => simp [hs] at h

/-- Everything a TRANSLATE can do (R206): it is refused, or stopped by overflow, or stopped by an
eviction without a victim, or it completes. -/
theorem translate_cases (inv : Bool) (image : Memory) (va : Va) (b : Block) :
    (b.err ≠ .none ∧ translate inv image va b = (b, .error b.err.bits)) ∨
    (b.err = .none ∧ b.total = Count.max ∧
      translate inv image va b = raiseBlockFault .counterOverflow b) ∨
    (b.ready ∧ ∃ e, resolve inv image (ordinalOf b) (vpnOf va) (countRequest b) = .error e ∧
      translate inv image va b = raiseBlockFault e b) ∨
    (b.ready ∧ ∃ r, resolve inv image (ordinalOf b) (vpnOf va) (countRequest b) = .ok r ∧
      translate inv image va b = finishXlate va r) := by
  unfold translate Block.ready
  by_cases he : b.err = .none
  · by_cases ht : b.total = Count.max
    · exact .inr (.inl ⟨he, ht, by simp [he, ht]⟩)
    · cases hr : resolve inv image (ordinalOf b) (vpnOf va) (countRequest b) with
      | error e => exact .inr (.inr (.inl ⟨⟨he, ht⟩, e, rfl, by simp [he, ht]⟩))
      | ok r => exact .inr (.inr (.inr ⟨⟨he, ht⟩, r, rfl, by simp [he, ht]⟩))
  · exact .inl ⟨he, by simp [he]⟩

/-- A TRANSLATE that is not refused or stopped is the pipeline and Done. -/
theorem translate_ready {inv : Bool} {image : Memory} {va : Va} {b : Block} (h : b.ready) :
    translate inv image va b =
      match resolve inv image (ordinalOf b) (vpnOf va) (countRequest b) with
      | .error e => raiseBlockFault e b
      | .ok r => finishXlate va r := by
  unfold translate
  refine (if_neg (fun he => he h.1)).trans ((if_neg h.2).trans ?_)
  cases resolve inv image (ordinalOf b) (vpnOf va) (countRequest b) <;> rfl

/-- The ordinal of a request that is not stopped by overflow: one more than `TOTAL`, with no wrap. -/
theorem ordinalOf_toNat {b : Block} (h : b.total ≠ Count.max) :
    (ordinalOf b).toNat = b.total.toNat + 1 := by
  have hlt : b.total.toNat + 1 < 2 ^ 32 := by
    have h1 : b.total.toNat < 2 ^ 32 := b.total.isLt
    have h2 : b.total.toNat ≠ 2 ^ 32 - 1 := fun h' => h (BitVec.eq_of_toNat_eq h')
    omega
  show (b.total.toNat + 1) % 2 ^ 32 = _
  exact Nat.mod_eq_of_lt hlt

end Sys2Proof.Machine
end

