-- ==== Sys2Proof/Laws/Step.lean ====
section
/-! SUPPORT. What a step of the machine can do, said once. -/

namespace Sys2Proof.Machine

open Config

/-- A request performed after the first reset: the block and the responses change as `serve` says, and
the host's move is taken. -/
theorem step_request {s : State} {w : ReqWord} {rest : List HostMove}
    (hi : s.inbox = .request w :: rest) (hr : s.wasReset = true) :
    step s = .next (({ s with inbox := rest }).answer (serve INVALIDATE_ON_UNBIND s.backing w s.block)) := by
  unfold step fetch
  simp only [hi, hr, if_true, acceptWord, serve]
  cases decode w with
  | instr i => cases i <;> rfl
  | reserved c => rfl

/-- Everything a step can do when it answers a next state: idle, a new level of the policy input, a
reset, a reset that binds an image, a reset during a request, or a request performed. -/
theorem step_cases {s t : State} (h : step s = .next t) :
    (s.inbox = [] ∧ t = s) ∨
    (∃ b rest, s.inbox = .drivePolicy b :: rest ∧ t = { s with inbox := rest, policyInput := b }) ∨
    (∃ rest, s.inbox = .reset :: rest ∧ t = State.resetBlock { s with inbox := rest }) ∨
    (∃ image rest, s.inbox = .resetWithImage image :: rest ∧ Memory.wf VA_SPACE image = true ∧
      t = State.resetBlock { s with inbox := rest, backing := image }) ∨
    (∃ w rest, s.inbox = .resetDuring w :: rest ∧ s.wasReset = true ∧
      t = State.resetBlock { s with inbox := rest }) ∨
    (∃ w rest, s.inbox = .request w :: rest ∧ s.wasReset = true ∧
      t = ({ s with inbox := rest }).answer (serve INVALIDATE_ON_UNBIND s.backing w s.block)) := by
  rcases hi : s.inbox with _ | ⟨m, rest⟩
  · simp only [step, fetch, hi, Host.Outcome.next.injEq] at h
    exact .inl ⟨rfl, h.symm⟩
  · cases m with
    | drivePolicy b =>
      simp only [step, fetch, hi, Host.Outcome.next.injEq] at h
      exact .inr (.inl ⟨b, rest, rfl, h.symm⟩)
    | reset =>
      simp only [step, fetch, hi, Host.Outcome.next.injEq] at h
      exact .inr (.inr (.inl ⟨rest, rfl, h.symm⟩))
    | resetWithImage image =>
      by_cases hw : Memory.wf VA_SPACE image = true
      · simp only [step, fetch, hi, hw, if_true, Host.Outcome.next.injEq] at h
        exact .inr (.inr (.inr (.inl ⟨image, rest, rfl, hw, h.symm⟩)))
      · simp [step, fetch, hi, hw] at h
    | resetDuring w =>
      by_cases hr : s.wasReset = true
      · simp only [step, fetch, hi, hr, if_true, Host.Outcome.next.injEq] at h
        refine .inr (.inr (.inr (.inr (.inl ⟨w, rest, rfl, hr, ?_⟩))))
        rw [← h]
        rfl
      · simp [step, fetch, hi, hr] at h
    | request w =>
      by_cases hr : s.wasReset = true
      · rw [step_request hi hr] at h
        simp only [Host.Outcome.next.injEq] at h
        exact .inr (.inr (.inr (.inr (.inr ⟨w, rest, rfl, hr, h.symm⟩))))
      · simp [step, fetch, hi, hr] at h

/-- Before the first reset a request is refused (R234). -/
theorem step_beforeReset {s : State} {w : ReqWord} {rest : List HostMove}
    (hi : s.inbox = .request w :: rest) (hr : s.wasReset = false) :
    step s = .refused .beforeReset := by
  simp [step, fetch, hi, hr]

/-- A reset that begins a run on an image of 2^20 bytes binds it and is a reset. -/
theorem step_resetWithImage {s : State} {image : Memory} {rest : List HostMove}
    (hi : s.inbox = .resetWithImage image :: rest) (hw : Memory.wf VA_SPACE image = true) :
    step s = .next (State.resetBlock { s with inbox := rest, backing := image }) := by
  simp only [step, fetch, hi, hw, if_true]

/-- A list that is no image of 2^20 bytes is refused (D15). -/
theorem step_badImage {s : State} {image : Memory} {rest : List HostMove}
    (hi : s.inbox = .resetWithImage image :: rest) (hw : Memory.wf VA_SPACE image = false) :
    step s = .refused .badImage := by
  simp [step, fetch, hi, hw]

/-- A run of one more step. -/
theorem run_succ_of_next {s t : State} (h : step s = .next t) (n : Nat) : run (n + 1) s = run n t := by
  simp only [run, h]

end Sys2Proof.Machine
end

