-- ==== Sys2Proof/Laws/Invariant.lean ====
section
/-! SUPPORT. How each part of TRANSLATE bears on the block's invariants (`Block.Inv`): reset meets them,
and a TLB hit, a table hit, a fault and a block fault keep them. -/

namespace Sys2Proof.Machine

open Config

theorem toNat_succ {b : Count} (h : b.toNat + 1 < 2 ^ 32) : (b + 1).toNat = b.toNat + 1 := by
  show (b.toNat + 1) % 2 ^ 32 = _
  exact Nat.mod_eq_of_lt h

theorem lt_of_ne_max {c : Count} (h : c ≠ Count.max) : c.toNat + 1 < 2 ^ 32 := by
  have h1 : c.toNat < 2 ^ 32 := c.isLt
  have h2 : c.toNat ≠ 2 ^ 32 - 1 := fun h' => h (BitVec.eq_of_toNat_eq h')
  omega

/-- No slot that would be stale: a valid slot's page is resident in its frame. -/
theorem Block.not_stale_iff (b : Block) (e : TlbSlot) :
    ¬ b.stale e ↔ (e.valid = true → b.owns e.vpn e.frame) := by
  rw [Block.owns_iff]
  unfold Block.stale
  by_cases he : e.valid = true
  · by_cases hv : (b.ptEntry e.vpn).valid = true
    · simp [he, hv]
    · simp [he, hv]
  · simp [he]

/-- Reset meets the invariants, with any backing image. -/
theorem Block.inv_reset (image : Memory) (p : Policy) : (Block.reset p).Inv image where
  pmWf := rfl
  counters := by simp
  tlbPtr := by simp [Block.inserts]
  tlbUnique := by simp
  tlbBound := by simp
  ownerUnique := by simp [Block.owns]
  boundFrames := by simp [Block.bound, Block.owns]
  allocPtr := by simp
  fullAt := by simp
  contents := by simp [Block.owns]
  stampsFifo := by simp
  stampsLru := by simp [Block.resident]
  stampsDistinct := by simp [Block.resident]
  coherentBeforeEviction := by simp [Block.coherent, Block.stale]
  owned := by simp

theorem Block.tlbFilled_reset (p : Policy) : (Block.reset p).tlbFilled := by
  simp [Block.tlbFilled, Block.inserts]

/-- The invariants do not speak of ERR but for NO_FRAME_OWNER. -/
theorem Block.Inv.setErr {image : Memory} {b : Block} (h : b.Inv image) {e : ErrCode}
    (he : e ≠ .noFrameOwner) : ({ b with err := e } : Block).Inv image :=
  ⟨h.pmWf, h.counters, h.tlbPtr, h.tlbUnique, h.tlbBound, h.ownerUnique, h.boundFrames, h.allocPtr,
    h.fullAt, h.contents, h.stampsFifo, h.stampsLru, h.stampsDistinct, h.coherentBeforeEviction, he⟩

/-- A block fault other than NO_FRAME_OWNER keeps the invariants. -/
theorem Block.Inv.raise {image : Memory} {b : Block} (h : b.Inv image) {e : BlockFault}
    (he : e ≠ .noFrameOwner) : (raiseBlockFault e b).1.Inv image := by
  refine h.setErr ?_
  unfold recordFault
  split
  · cases e <;> simp_all [BlockFault.code]
  · exact h.owned

/-- A TLB hit keeps the invariants. -/
theorem Block.Inv.hit {image : Memory} {b : Block} (h : b.Inv image) (hm : b.total ≠ Count.max) :
    (countHit (countRequest b)).Inv image := by
  have hlt := lt_of_ne_max hm
  have hc := h.counters
  have ht : (countHit (countRequest b)).total.toNat = b.total.toNat + 1 := ordinalOf_toNat hm
  have hh : (countHit (countRequest b)).hits.toNat = b.hits.toNat + 1 :=
    toNat_succ (b := b.hits) (by omega)
  have hi : (countHit (countRequest b)).inserts = b.inserts := by
    unfold Block.inserts
    omega
  exact {
    pmWf := h.pmWf
    counters := by rw [ht, hh]; show _ + b.faults.toNat ≤ _; omega
    tlbPtr := by rw [hi]; exact h.tlbPtr
    tlbUnique := h.tlbUnique
    tlbBound := h.tlbBound
    ownerUnique := h.ownerUnique
    boundFrames := h.boundFrames
    allocPtr := h.allocPtr
    fullAt := h.fullAt
    contents := h.contents
    stampsFifo := h.stampsFifo
    stampsLru := fun hp p hr => by
      obtain ⟨h1, h2⟩ := h.stampsLru hp p hr
      exact ⟨h1, by rw [ht]; exact Nat.le_succ_of_le h2⟩
    stampsDistinct := h.stampsDistinct
    coherentBeforeEviction := h.coherentBeforeEviction
    owned := h.owned }

/-- What frame selection leaves for the fault path, in a block that meets the invariants: frame `f` is
free, the other frames keep their owners, and slots only lose their valid bit. -/
structure Selected (inv : Bool) (b c : Block) (f : FrameNo) : Prop where
  policy : c.policy = b.policy
  tlbPtr : c.tlbPtr = b.tlbPtr
  ts : c.ts = b.ts
  pm : c.pm = b.pm
  total : c.total = b.total
  hits : c.hits = b.hits
  faults : c.faults = b.faults
  err : c.err = b.err
  allocPtr : c.allocPtr = b.allocPtr + 1
  full : c.full = true ↔ b.full = true ∨ b.allocPtr.toNat + 1 = N_FRAMES
  free : ¬ c.bound f
  keeps : ∀ q g, c.owns q g ↔ b.owns q g ∧ g ≠ f
  slotVpn : ∀ i, (c.slot i).vpn = (b.slot i).vpn
  slotFrame : ∀ i, (c.slot i).frame = (b.slot i).frame
  slotValid : ∀ i, (c.slot i).valid = true → (b.slot i).valid = true
  slotKept : inv = false → ∀ i, c.slot i = b.slot i
  slotCurrent : inv = true → ∀ i, (c.slot i).valid = true → ¬ b.owns (b.slot i).vpn f

/-- Frame selection, in a block that meets the invariants. -/
theorem selectFrame_selected {inv : Bool} {b c : Block} {f : FrameNo} (hu : ∀ p q f, b.owns p f →
    b.owns q f → p = q) (hb : ∀ f, b.bound f ↔ b.full = true ∨ f.toNat < b.allocPtr.toNat)
    (h : selectFrame inv b = .ok (c, f)) : Selected inv b c f := by
  rcases selectFrame_ok h with ⟨hf, rfl, rfl⟩ | ⟨hf, v, hv, rfl, -⟩
  · have hfree : ¬ b.bound b.allocPtr := by
      rw [hb]
      simp [hf]
    refine { policy := rfl, tlbPtr := rfl, ts := rfl, pm := rfl, total := rfl, hits := rfl,
             faults := rfl, err := rfl, allocPtr := rfl, full := advanceCursor_full b,
             free := hfree, keeps := ?_, slotVpn := fun _ => rfl, slotFrame := fun _ => rfl,
             slotValid := fun _ h => h, slotKept := fun _ _ => rfl, slotCurrent := ?_ }
    · intro q g
      constructor
      · intro hq
        exact ⟨hq, fun hg => hfree ⟨q, hg ▸ hq⟩⟩
      · exact fun hq => hq.1
    · intro _ i _ ho
      exact hfree ⟨_, ho⟩
  · refine { policy := by simp, tlbPtr := by simp, ts := by simp, pm := by simp, total := by simp,
             hits := by simp, faults := by simp, err := by simp, allocPtr := by simp,
             full := by rw [ptUnbind_full]; exact advanceCursor_full b,
             free := ?_, keeps := ?_, slotVpn := ?_, slotFrame := ?_, slotValid := ?_,
             slotKept := ?_, slotCurrent := ?_ }
    · rintro ⟨q, hq⟩
      obtain ⟨hne, hq⟩ := (ptUnbind_owns ..).1 hq
      exact hne (hu v q f hv hq)
    · intro q g
      rw [ptUnbind_owns]
      constructor
      · rintro ⟨hne, hq⟩
        refine ⟨hq, fun hg => hne (hu v q f hv ?_)⟩
        rw [← hg]
        exact hq
      · rintro ⟨hq, hg⟩
        refine ⟨fun hvq => hg ?_, hq⟩
        subst hvq
        exact Block.owns_frame_unique hq hv
    · intro i
      rw [ptUnbind_slot]
      split <;> rfl
    · intro i
      rw [ptUnbind_slot]
      split <;> rfl
    · intro i hi
      rw [ptUnbind_slot] at hi
      split at hi
      · exact absurd hi (by simp)
      · exact hi
    · rintro rfl i
      rw [ptUnbind_slot]
      rfl
    · rintro rfl i hi ho
      rw [ptUnbind_slot] at hi
      have hvi : v = (b.slot i).vpn := hu _ _ f hv ho
      split at hi
      · exact absurd hi (by simp)
      · rename_i hn
        apply hn
        rw [Bool.true_and, TlbSlot.holds_iff]
        exact ⟨hi, hvi.symm⟩

/-- The frame of a slot that is valid and current, or of a bound frame, stays bound through the fault
path: the frames of the block after it. -/
theorem afterFault_owns (image : Memory) (ord : Count) (p q : Vpn) (f g : FrameNo) (c : Block) :
    (afterFault image ord p f c).owns q g ↔ (p = q ∧ f = g) ∨ (p ≠ q ∧ c.owns q g) := by
  have h : (afterFault image ord p f c).pt = (ptBind (loadPage image c p f) p f).pt := by
    simp [afterFault]
  rw [Block.owns_congr h, ptBind_owns, Block.owns_congr (loadPage_pt image c p f)]

theorem afterFault_slot (image : Memory) (ord : Count) (p : Vpn) (f : FrameNo) (c : Block)
    (i : TlbIndex) :
    (afterFault image ord p f c).slot i = if c.tlbPtr = i then ⟨true, p, f⟩ else c.slot i := by
  unfold afterFault
  rw [tlbInsert_slot]
  have h1 : (touchStamp (ptBind (loadPage image c p f) p f) p ord).tlbPtr = c.tlbPtr := by simp
  have h2 : (touchStamp (ptBind (loadPage image c p f) p f) p ord).tlb = c.tlb := by simp
  rw [h1, Block.slot_congr h2]

theorem afterFault_stamp (image : Memory) (ord : Count) (p q : Vpn) (f : FrameNo) (c : Block) :
    (afterFault image ord p f c).stamp q =
      if c.policy = .lru ∧ p = q then ord else c.stamp q := by
  have h : (afterFault image ord p f c).ts =
      (touchStamp (ptBind (loadPage image c p f) p f) p ord).ts := tlbInsert_ts _ _ _
  rw [Block.stamp_congr h, touchStamp_stamp]
  have h2 : (ptBind (loadPage image c p f) p f).ts = c.ts := by simp
  rw [Block.stamp_congr h2]
  rfl

theorem afterFault_memRead {image : Memory} {ord : Count} {p : Vpn} {f : FrameNo} {c : Block}
    (h : Memory.wf PM_SIZE c.pm = true) (g : FrameNo) (o : Offset) :
    memRead (afterFault image ord p f c) (physAddr g o) =
      if f = g then backingRead image (backAddr p o) else memRead c (physAddr g o) := by
  rw [← memRead_loadPage h]
  exact memRead_congr (by simp [afterFault]) _

theorem afterFault_wf {image : Memory} {ord : Count} {p : Vpn} {f : FrameNo} {c : Block}
    (h : Memory.wf PM_SIZE c.pm = true) :
    Memory.wf PM_SIZE (afterFault image ord p f c).pm = true := by
  have : (afterFault image ord p f c).pm = (loadPage image c p f).pm := by simp [afterFault]
  rw [this]
  exact loadPage_wf h

section afterFault
variable (image : Memory) (ord : Count) (p : Vpn) (f : FrameNo) (c : Block)
@[simp] theorem afterFault_policy : (afterFault image ord p f c).policy = c.policy := by simp [afterFault]
@[simp] theorem afterFault_allocPtr : (afterFault image ord p f c).allocPtr = c.allocPtr := by simp [afterFault]
@[simp] theorem afterFault_full : (afterFault image ord p f c).full = c.full := by simp [afterFault]
@[simp] theorem afterFault_total : (afterFault image ord p f c).total = c.total := by simp [afterFault]
@[simp] theorem afterFault_faults : (afterFault image ord p f c).faults = c.faults := by simp [afterFault]
@[simp] theorem afterFault_hits : (afterFault image ord p f c).hits = c.hits := by simp [afterFault]
@[simp] theorem afterFault_err : (afterFault image ord p f c).err = c.err := by simp [afterFault]
@[simp] theorem afterFault_tlbPtr : (afterFault image ord p f c).tlbPtr = c.tlbPtr + 1 := by
  simp [afterFault]
end afterFault

/-- An insert of one more: the pointer stays the number of inserts modulo 16. -/
theorem tlbPtr_succ {i : TlbIndex} {n : Nat} (h : i.toNat = n % TLB_SIZE) :
    (i + 1).toNat = (n + 1) % TLB_SIZE := by
  show (i.toNat + 1) % 16 = (n + 1) % 16
  have h : i.toNat = n % 16 := h
  omega

/-- A table hit keeps the invariants. -/
theorem Block.Inv.tableHit {image : Memory} {b : Block} (h : b.Inv image) (hm : b.total ≠ Count.max)
    {p : Vpn} {f : FrameNo} (hl : b.tlbMisses p) (ho : b.owns p f) :
    (tlbInsert (touchStamp (countRequest b) p (ordinalOf b)) p f).Inv image := by
  have ht := ordinalOf_toNat hm
  have hc := h.counters
  generalize hdef : tlbInsert (touchStamp (countRequest b) p (ordinalOf b)) p f = c
  have hslot : ∀ i, c.slot i = if b.tlbPtr = i then ⟨true, p, f⟩ else b.slot i := by
    intro i
    rw [← hdef, tlbInsert_slot]
    have h2 : (touchStamp (countRequest b) p (ordinalOf b)).tlb = b.tlb := by simp
    rw [Block.slot_congr h2]
    rfl
  have hpt : c.pt = b.pt := by rw [← hdef]; simp
  have howns : ∀ q g, c.owns q g ↔ b.owns q g := fun q g => Block.owns_congr hpt q g
  have hbound : ∀ g, c.bound g ↔ b.bound g := fun g => Block.bound_congr hpt g
  have hres : ∀ q, c.resident q ↔ b.resident q := fun q => by
    unfold Block.resident
    rw [Block.ptEntry_congr hpt]
  have hpm : c.pm = b.pm := by rw [← hdef]; simp
  have hpol : c.policy = b.policy := by rw [← hdef]; simp
  have htot : c.total.toNat = b.total.toNat + 1 := by rw [← hdef]; simpa using ht
  have hhits : c.hits = b.hits := by rw [← hdef]; simp
  have hfaults : c.faults = b.faults := by rw [← hdef]; simp
  have hstamp : ∀ q, c.stamp q = if b.policy = .lru ∧ p = q then ordinalOf b else b.stamp q := by
    intro q
    rw [← hdef, Block.stamp_congr (tlbInsert_ts ..), touchStamp_stamp]
    rfl
  have hins : c.inserts = b.inserts + 1 := by
    unfold Block.inserts
    rw [htot, hhits]
    omega
  have hpr : b.resident p := ((Block.owns_iff ..).1 ho).1
  have hmiss : ∀ i, (b.slot i).valid = true → (b.slot i).vpn ≠ p := by
    intro i hi hv
    have := hl i
    rw [(TlbSlot.holds_iff _ _).2 ⟨hi, hv⟩] at this
    exact absurd this (by simp)
  exact {
    pmWf := by rw [hpm]; exact h.pmWf
    counters := by rw [htot, hhits, hfaults]; omega
    tlbPtr := by
      rw [hins, ← tlbPtr_succ h.tlbPtr, ← hdef]
      simp
    tlbUnique := by
      intro i j
      rw [hslot, hslot]
      split <;> split
      · intros; simp_all
      · intro _ hj hv
        exact absurd hv.symm (hmiss j hj)
      · intro hi _ hv
        exact absurd hv (hmiss i hi)
      · exact h.tlbUnique i j
    tlbBound := by
      intro i
      rw [hslot, hbound]
      split
      · exact fun _ => ⟨p, ho⟩
      · exact h.tlbBound i
    ownerUnique := by simpa only [howns] using h.ownerUnique
    boundFrames := by
      intro g
      rw [hbound, h.boundFrames, ← hdef]
      simp
    allocPtr := by rw [hfaults, ← h.allocPtr, ← hdef]; simp
    fullAt := by rw [hfaults, ← h.fullAt, ← hdef]; simp
    contents := by
      intro q g hq off
      rw [memRead_congr hpm]
      exact h.contents q g ((howns q g).1 hq) off
    stampsFifo := by
      intro hp q
      rw [hpol] at hp
      rw [hstamp]
      simpa [hp] using h.stampsFifo hp q
    stampsLru := by
      intro hp q hq
      rw [hpol] at hp
      rw [hstamp, htot]
      split
      · omega
      · obtain ⟨h1, h2⟩ := h.stampsLru hp q ((hres q).1 hq)
        omega
    stampsDistinct := by
      intro hp q r hq hr
      rw [hpol] at hp
      have hq := (hres q).1 hq
      have hr := (hres r).1 hr
      rw [hstamp, hstamp]
      split <;> split
      · intros; simp_all
      · intro he
        have := (h.stampsLru hp r hr).2
        rw [← he] at this
        omega
      · intro he
        have := (h.stampsLru hp q hq).2
        rw [he] at this
        omega
      · exact h.stampsDistinct hp q r hq hr
    coherentBeforeEviction := by
      intro he i
      have he : b.evictions = 0 := by
        unfold Block.evictions at he ⊢
        rwa [hfaults] at he
      rw [Block.not_stale_iff, hslot, howns]
      split
      · exact fun _ => ho
      · exact (Block.not_stale_iff ..).1 (h.coherentBeforeEviction he i)
    owned := by rw [← hdef]; simpa using h.owned }

/-- A fault keeps the invariants, whatever frame selection did (R128). -/
theorem Block.Inv.fault {inv : Bool} {image : Memory} {b b' : Block} {p : Vpn} {f : FrameNo}
    (h : b.Inv image) (hm : b.total ≠ Count.max) (hf : b.faultsOn p)
    (hs : selectFrame inv (countFault (countRequest b)) = .ok (b', f)) :
    (afterFault image (ordinalOf b) p f b').Inv image := by
  have hsel : Selected inv (countFault (countRequest b)) b' f :=
    selectFrame_selected h.ownerUnique h.boundFrames hs
  have hlt := lt_of_ne_max hm
  have hc := h.counters
  obtain ⟨hl, hu⟩ := hf
  generalize hdef : afterFault image (ordinalOf b) p f b' = c
  have hslot : ∀ i, c.slot i = if b.tlbPtr = i then ⟨true, p, f⟩ else b'.slot i := by
    intro i
    rw [← hdef, afterFault_slot, hsel.tlbPtr]
    rfl
  have howns' : ∀ q g, b'.owns q g ↔ b.owns q g ∧ g ≠ f := hsel.keeps
  have hnp : ∀ g, ¬ b.owns p g := by
    intro g hg
    have := ((Block.owns_iff ..).1 hg).1
    rw [hu] at this
    exact absurd this (by simp)
  have howns : ∀ q g, c.owns q g ↔ (p = q ∧ f = g) ∨ (b.owns q g ∧ g ≠ f) := by
    intro q g
    rw [← hdef, afterFault_owns, howns']
    constructor
    · rintro (h1 | ⟨-, h1⟩)
      · exact .inl h1
      · exact .inr h1
    · rintro (h1 | h1)
      · exact .inl h1
      · exact .inr ⟨fun hpq => hnp g (hpq ▸ h1.1), h1⟩
  have hres : ∀ q, c.resident q → p = q ∨ b.resident q := by
    intro q hq
    rcases (howns q _).1 ((Block.owns_iff ..).2 ⟨hq, rfl⟩) with h1 | h1
    · exact .inl h1.1
    · exact .inr ((Block.owns_iff ..).1 h1.1).1
  have hwf : Memory.wf PM_SIZE b'.pm = true := by rw [hsel.pm]; exact h.pmWf
  have hmem : ∀ g o, memRead c (physAddr g o) =
      if f = g then backingRead image (backAddr p o) else memRead b (physAddr g o) := by
    intro g o
    rw [← hdef, afterFault_memRead hwf, memRead_congr hsel.pm]
    rfl
  have hpol : c.policy = b.policy := by rw [← hdef, afterFault_policy, hsel.policy]; rfl
  have htot : c.total.toNat = b.total.toNat + 1 := by
    rw [← hdef, afterFault_total, hsel.total]
    exact ordinalOf_toNat hm
  have hhits : c.hits = b.hits := by rw [← hdef, afterFault_hits, hsel.hits]; rfl
  have hfaults : c.faults.toNat = b.faults.toNat + 1 := by
    rw [← hdef, afterFault_faults, hsel.faults]
    exact toNat_succ (b := b.faults) (by omega)
  have hstamp : ∀ q, c.stamp q = if b.policy = .lru ∧ p = q then ordinalOf b else b.stamp q := by
    intro q
    rw [← hdef, afterFault_stamp, hsel.policy, Block.stamp_congr hsel.ts]
    rfl
  have hord := ordinalOf_toNat hm
  have hins : c.inserts = b.inserts + 1 := by
    unfold Block.inserts
    rw [htot, hhits]
    omega
  have hmiss : ∀ i, (b'.slot i).valid = true → (b'.slot i).vpn ≠ p := by
    intro i hi hv
    have h1 := hl i
    have h2 : (b.slot i).holds p = true :=
      (TlbSlot.holds_iff _ _).2 ⟨hsel.slotValid i hi, (hsel.slotVpn i).symm.trans hv⟩
    rw [h2] at h1
    exact absurd h1 (by simp)
  have hap : b.allocPtr.toNat = b.faults.toNat % 256 := h.allocPtr
  have hap' : c.allocPtr.toNat = (b.faults.toNat + 1) % 256 := by
    rw [← hdef, afterFault_allocPtr, hsel.allocPtr]
    show (b.allocPtr.toNat + 1) % 256 = _
    omega
  have hfull : b.full = true ↔ 256 ≤ b.faults.toNat := h.fullAt
  have hfull' : c.full = true ↔ 256 ≤ b.faults.toNat + 1 := by
    rw [← hdef, afterFault_full, hsel.full]
    show b.full = true ∨ b.allocPtr.toNat + 1 = 256 ↔ _
    rw [hfull]
    omega
  have hbound : ∀ g, c.bound g ↔ g = f ∨ b.bound g := by
    intro g
    constructor
    · rintro ⟨q, hq⟩
      rcases (howns q g).1 hq with h1 | h1
      · exact .inl h1.2.symm
      · exact .inr ⟨q, h1.1⟩
    · rintro (rfl | ⟨q, hq⟩)
      · exact ⟨p, (howns p g).2 (.inl ⟨rfl, rfl⟩)⟩
      · by_cases hg : g = f
        · exact ⟨p, (howns p g).2 (.inl ⟨rfl, hg.symm⟩)⟩
        · exact ⟨q, (howns q g).2 (.inr ⟨hq, hg⟩)⟩
  exact {
    pmWf := by rw [← hdef]; exact afterFault_wf hwf
    counters := by rw [htot, hhits, hfaults]; omega
    tlbPtr := by
      rw [hins, ← tlbPtr_succ h.tlbPtr, ← hdef, afterFault_tlbPtr, hsel.tlbPtr]
      rfl
    tlbUnique := by
      intro i j
      rw [hslot, hslot]
      split <;> split
      · intros; simp_all
      · intro _ hj hv
        exact absurd hv.symm (hmiss j hj)
      · intro hi _ hv
        exact absurd hv (hmiss i hi)
      · intro hi hj hv
        refine h.tlbUnique i j (hsel.slotValid i hi) (hsel.slotValid j hj) ?_
        have h1 := hsel.slotVpn i
        have h2 := hsel.slotVpn j
        exact h1.symm.trans (hv.trans h2)
    tlbBound := by
      intro i
      rw [hslot, hbound]
      split
      · exact fun _ => .inl rfl
      · intro hi
        rw [hsel.slotFrame i]
        exact .inr (h.tlbBound i (hsel.slotValid i hi))
    ownerUnique := by
      intro q r g hq hr
      rcases (howns q g).1 hq with h1 | h1 <;> rcases (howns r g).1 hr with h2 | h2
      · exact h1.1.symm.trans h2.1
      · exact absurd h1.2.symm h2.2
      · exact absurd h2.2.symm h1.2
      · exact h.ownerUnique q r g h1.1 h2.1
    boundFrames := by
      intro g
      rw [hbound, hfull', hap']
      have hg : g.toNat < 256 := g.isLt
      have hb := h.boundFrames g
      rw [hfull, hap] at hb
      rw [hb]
      rcases selectFrame_ok hs with ⟨hnf, hfa, -⟩ | ⟨hnf, -⟩
      · have hnf : ¬ 256 ≤ b.faults.toNat := by
          rw [← hfull]
          simpa using hnf
        have hgf : g = f ↔ g.toNat = b.faults.toNat := by
          rw [hfa, ← BitVec.toNat_inj]
          show _ = b.allocPtr.toNat ↔ _
          rw [hap]
          omega
        rw [hgf]
        omega
      · have hnf : 256 ≤ b.faults.toNat := hfull.1 hnf
        constructor
        · intro _
          left
          omega
        · intro _
          exact .inr (.inl hnf)
    allocPtr := by rw [hfaults]; exact hap'
    fullAt := by rw [hfaults]; exact hfull'
    contents := by
      intro q g hq off
      rw [hmem]
      rcases (howns q g).1 hq with h1 | h1
      · rw [if_pos h1.2, h1.1]
      · rw [if_neg (fun hg => h1.2 hg.symm)]
        exact h.contents q g h1.1 off
    stampsFifo := by
      intro hp q
      rw [hpol] at hp
      rw [hstamp]
      simpa [hp] using h.stampsFifo hp q
    stampsLru := by
      intro hp q hq
      rw [hpol] at hp
      rw [hstamp, htot]
      split
      · omega
      · rename_i hn
        rcases hres q hq with h1 | h1
        · exact absurd ⟨hp, h1⟩ hn
        · obtain ⟨h2, h3⟩ := h.stampsLru hp q h1
          omega
    stampsDistinct := by
      intro hp q r hq hr
      rw [hpol] at hp
      rw [hstamp, hstamp]
      split <;> split
      · intros; simp_all
      · rename_i h1 h2
        intro he
        rcases hres r hr with h3 | h3
        · exact absurd ⟨hp, h3⟩ h2
        · have := (h.stampsLru hp r h3).2
          rw [← he] at this
          omega
      · rename_i h1 h2
        intro he
        rcases hres q hq with h3 | h3
        · exact absurd ⟨hp, h3⟩ h1
        · have := (h.stampsLru hp q h3).2
          rw [he] at this
          omega
      · rename_i h1 h2
        rcases hres q hq with h3 | h3
        · exact absurd ⟨hp, h3⟩ h1
        · rcases hres r hr with h4 | h4
          · exact absurd ⟨hp, h4⟩ h2
          · exact h.stampsDistinct hp q r h3 h4
    coherentBeforeEviction := by
      intro he i
      have he' : b.faults.toNat + 1 ≤ 256 := by
        have : c.faults.toNat - 256 = 0 := he
        omega
      have heb : b.evictions = 0 := by
        show b.faults.toNat - 256 = 0
        omega
      have hcur := fun i => (Block.not_stale_iff ..).1 (h.coherentBeforeEviction heb i)
      rcases selectFrame_ok hs with ⟨hnf, hfa, hb'⟩ | ⟨hnf, -⟩
      · rw [Block.not_stale_iff, hslot, howns]
        split
        · exact fun _ => .inl ⟨rfl, rfl⟩
        · intro hi
          have hi' := hcur i (hsel.slotValid i hi)
          rw [hsel.slotVpn, hsel.slotFrame]
          refine .inr ⟨hi', fun hg => ?_⟩
          have hbf : b.bound f := ⟨_, hg ▸ hi'⟩
          rw [h.boundFrames] at hbf
          have hnf : b.full = false := hnf
          have hfa : f = b.allocPtr := hfa
          simp [hnf, hfa] at hbf
      · have := hfull.1 hnf
        omega
    owned := by
      rw [← hdef, afterFault_err, hsel.err]
      exact h.owned }

end Sys2Proof.Machine
end

