-- ==== Sys2Proof/Laws/PerInstr.lean ====
section
/-! SUPPORT. Statements made per request, one lemma for each constructor of `Instr`. -/

namespace Sys2Proof.Laws.Command

/-- The fields of a request's word are its command and its operand (30_encoding.md R81 to R83). -/
def Statement (i : Instr) : Prop :=
  commandField (encode i) = i.command ∧ operandField (encode i) = i.operand

/-- TRANSLATE has `CMD = 00`, and the virtual address as operand (R82). -/
theorem translate (va : Va) : Statement (.translate va) :=
  ⟨commandField_encode _, operandField_encode _⟩

/-- READ_STATS has `CMD = 01`, and keeps its operand (R83). -/
theorem readStats (operand : Operand) : Statement (.readStats operand) :=
  ⟨commandField_encode _, operandField_encode _⟩

end Sys2Proof.Laws.Command
end

