-- ==== Sys2Proof/Tests/Slice0.lean ====
section
/-! SUPPORT. Tests of the model against 95_test_vectors.md, and for each obligation that has hypotheses a
concrete state and operands that meet them. The name of a vector (X1, A5) stands where its test does. -/

open Sys2Proof Sys2Proof.Machine Sys2Proof.Config

namespace Sys2Proof.Tests

/-! ## Small states -/

/-- Bytes of the test image of 95_test_vectors.md at the addresses its vectors read; the others are 0. -/
def img : Memory := [(5, 5), (1029, 42), (1033, 46), (1048575, 220)]

/-- Right after a reset under FIFO, and under LRU. -/
def fifo : State := State.boot 0 img
def lru : State := State.boot 1 img

/-- A state with this block and an image of zeros. -/
def holding (b : Block) : State := { State.reset with block := b }

/-- Page 1 in frame 0 and in TLB slot 0, after one fault (the state after X1 but for the bytes). -/
def oneBlock (k : Policy) : Block :=
  { Block.reset k with
    tlb := (Block.reset k).tlb.set 0 ⟨true, 1, 0⟩
    tlbPtr := 1
    pt := (Block.reset k).pt.set 1 ⟨true, 0⟩
    ts := if k = .lru then (Block.reset k).ts.set 1 1 else (Block.reset k).ts
    allocPtr := 1
    total := 1
    faults := 1 }

/-- The same with the TLB emptied by hand: page 1 is a table hit. -/
def tableBlock (k : Policy) : Block := { oneBlock k with tlb := (Block.reset k).tlb }

/-- A block after a block fault. -/
def errBlock (e : ErrCode) : Block := { Block.reset .fifo with err := e }

/-- All the frames taken: page `p` in frame `p` below 256, after 256 faults in order and then a table hit
on page 0 (its part of P3 and P4), over an image of zeros. -/
def fullBlock (k : Policy) : Block where
  policy := k
  tlb := Vector.ofFn fun i =>
    if i.val = 0 then ⟨true, 0, 0⟩
    else ⟨true, BitVec.ofNat 10 (240 + i.val), BitVec.ofNat 8 (240 + i.val)⟩
  tlbPtr := 1
  pt := Vector.ofFn fun p => if p.val < 256 then ⟨true, BitVec.ofNat 8 p.val⟩ else ⟨false, 0⟩
  ts := Vector.ofFn fun p =>
    if k = .lru ∧ p.val < 256 then (if p.val = 0 then 257 else BitVec.ofNat 32 (p.val + 1)) else 0
  allocPtr := 0
  full := true
  pm := []
  total := 257
  faults := 256
  hits := 0
  err := .none

/-- The same under LRU, with every timestamp 5 (A6, not reachable). -/
def tieBlock : Block := { fullBlock .lru with ts := Vector.replicate N_PAGES 5 }

/-- Whether an outcome is a next state that passes a check. -/
def nextIs (o : Host.Outcome State Fault Refusal) (check : State → Bool) : Bool :=
  match o with
  | .next t => check t
  | .fault _ => false
  | .refused _ => false

/-! ## Well-formedness: each check refuses an ill-formed term -/

theorem test_isRequestWord : isRequestWord 0x3FFFFFFFF = true ∧ isRequestWord 0x400000000 = false := by
  decide

theorem test_inTraceRange :
    inTraceRange 2147483647 = true ∧ inTraceRange 2147483648 = false ∧
    inTraceRange (-2147483648) = true ∧ inTraceRange (-2147483649) = false := by decide

theorem test_trace_line_wellFormed :
    (TraceLine.bare 2147483648).wellFormed = false ∧
    (TraceLine.translate (-2147483649)).wellFormed = false := by decide

theorem test_canonical :
    (Instr.readStats 0).canonical = true ∧ (Instr.readStats 0x12345678#32).canonical = false := by decide

theorem test_memory_wf :
    Memory.wf PM_SIZE [(5, 1), (5, 2)] = false ∧ Memory.wf PM_SIZE [(5, 0)] = false ∧
    Memory.wf PM_SIZE [(262144, 1)] = false ∧ Memory.wf PM_SIZE [(262143, 1)] = true := by decide

/-! ## Decoding: words written out from 30_encoding.md R81 to R83 -/

/-- `CMD = 00`, IGN 0, VPN 1, OFF 5. -/
theorem test_decode_translate :
    decode 0b00_000000000000_0000000001_0000000101#34 = .instr (.translate 1029) := by decide

/-- `CMD = 01`, operand 0x12345678 (S2). -/
theorem test_decode_readStats :
    decode 0b01_00010010001101000101011001111000#34 = .instr (.readStats 0x12345678#32) := by decide

/-- `CMD = 10` and `CMD = 11` are reserved (E1, E2). -/
theorem test_decode_reserved :
    decode 0b10_00000000000000000000000000000000#34 = .reserved 0b10#2 ∧
    decode 0b11_11111111111111111111111111111111#34 = .reserved 0b11#2 := by decide

theorem test_decodeTableWord :
    decodeTableWord 40 0x0FFFFFC00 = some (.translate 0xFFFFFC00#32) ∧
    decodeTableWord 34 0x100000000 = some (.readStats 0) ∧
    decodeTableWord 40 0x200000000 = none := by decide

/-! ## The two requests, and the parts of TRANSLATE -/

/-- X1. -/
theorem test_translate_fault : nextIs (exec (.translate 1029) fifo) (fun t =>
    t.outbox == [.xlate 1029 5 42] && t.block.total == 1 && t.block.faults == 1 &&
    t.block.ptEntry 1 == ⟨true, 0⟩ && t.block.slot 0 == ⟨true, 1, 0⟩ && t.block.tlbPtr == 1 &&
    t.block.allocPtr == 1) = true := by decide +kernel

/-- X5, by a step that performs the word of `TRANSLATE -1`. -/
theorem test_translate_negative : nextIs (step (fifo.withFetchWord 34 0x0FFFFFFFF)) (fun t =>
    t.outbox == [.xlate 0xFFFFFFFF#32 1023 220] && t.block.ptEntry 1023 == ⟨true, 0⟩) = true := by
  decide +kernel

/-- S2. -/
theorem test_readStats : nextIs (exec (.readStats 0x12345678#32) fifo) (fun t =>
    t.outbox == [.stats 0 0 0 0]) = true := by decide

/-- S3: served while ERR is set. -/
theorem test_readStats_faulted : nextIs
    (exec (.readStats 0) (holding { errBlock .counterOverflow with total := Count.max, faults := 1 }))
    (fun t => t.outbox == [.stats 4294967295 1 0 2]) = true := by decide

/-- E3: the first fault is kept. -/
theorem test_reserved_keeps_first : nextIs
    (step ((holding (errBlock .counterOverflow)).withFetchWord 34 0x200000000))
    (fun t => t.outbox == [.error 2] && t.block.err == .counterOverflow) = true := by decide

/-- E4: a refusal comes before the overflow check. -/
theorem test_refused_before_overflow : nextIs
    (exec (.translate 0) (holding { errBlock .reservedCommand with total := Count.max }))
    (fun t => t.outbox == [.error 1] && t.block.err == .reservedCommand) = true := by decide

/-- T5: the lowest slot wins. -/
theorem test_tlbLookup_lowest :
    tlbLookup (((Block.reset .fifo).setSlot 9 ⟨true, 8, 4⟩).setSlot 2 ⟨true, 8, 1⟩) 8 = some 1 := by
  decide

/-- T4: the pointer wraps. -/
theorem test_tlbInsert_wraps :
    (tlbInsert { Block.reset .fifo with tlbPtr := 15 } 300 9).slot 15 = ⟨true, 300, 9⟩ ∧
    (tlbInsert { Block.reset .fifo with tlbPtr := 15 } 300 9).tlbPtr = 0 := by decide

/-- PT3 and PT4, with page 4 for page 513: an owner is found, and an invalid entry never matches. -/
theorem test_ptReverseLookup :
    ptReverseLookup ((Block.reset .fifo).setPtEntry 4 ⟨true, 0⟩) 0 = some 4 ∧
    ptReverseLookup ((Block.reset .fifo).setPtEntry 4 ⟨false, 0⟩) 0 = none := by
  refine ⟨by decide +kernel, (ptReverseLookup_eq_none_iff ..).2 ?_⟩
  rintro ⟨p, h⟩
  rw [Block.owns, Block.setPtEntry_ptEntry, Block.reset_ptEntry] at h
  split at h <;> simp at h

/-- PT6 and PT7. -/
theorem test_ptUnbind :
    (ptUnbind false (oneBlock .fifo) 1).slot 0 = ⟨true, 1, 0⟩ ∧
    (ptUnbind true (oneBlock .fifo) 1).slot 0 = ⟨false, 1, 0⟩ ∧
    (ptUnbind false (oneBlock .fifo) 1).ptEntry 1 = ⟨false, 0⟩ := by decide +kernel

/-- A2: the last free frame sets FULL. -/
theorem test_selectFrame_last_free :
    (selectFrame false { Block.reset .fifo with allocPtr := 255 }).toOption.map
      (fun r => (r.2, r.1.allocPtr, r.1.full)) = some (255, 0, true) := by decide

/-- A3: FIFO evicts page 0 from frame 0. -/
theorem test_fifoEvict :
    (selectFrame false (fullBlock .fifo)).toOption.map
      (fun r => (r.2, r.1.allocPtr, (r.1.ptEntry 0).valid)) = some (0, 1, false) := by decide +kernel

/-- R91: what the host prints of the bytes 0x80 and 0x7F, and of the address pattern of -1. -/
theorem test_signed :
    signedByte 0x80#8 = -128 ∧ signedByte 0x7F#8 = 127 ∧ signedVa 0xFFFFFFFF#32 = -1 := by decide

/-! ## What `fullBlock` holds, and that it meets the invariants -/

theorem full_ptEntry (k : Policy) (p : Vpn) : (fullBlock k).ptEntry p =
    if p.toNat < 256 then ⟨true, BitVec.ofNat 8 p.toNat⟩ else ⟨false, 0⟩ := by
  simp [Block.ptEntry, fullBlock]

theorem full_slot (k : Policy) (i : TlbIndex) : (fullBlock k).slot i =
    if i.toNat = 0 then ⟨true, 0, 0⟩
    else ⟨true, BitVec.ofNat 10 (240 + i.toNat), BitVec.ofNat 8 (240 + i.toNat)⟩ := by
  simp only [Block.slot, fullBlock, Vector.getElem_ofFn]

theorem full_stamp (k : Policy) (p : Vpn) : (fullBlock k).stamp p =
    if k = .lru ∧ p.toNat < 256 then (if p.toNat = 0 then 257 else BitVec.ofNat 32 (p.toNat + 1))
    else 0 := by
  simp only [Block.stamp, fullBlock, Vector.getElem_ofFn]

theorem full_owns (k : Policy) (p : Vpn) (f : FrameNo) :
    (fullBlock k).owns p f ↔ p.toNat = f.toNat := by
  have hf : f.toNat < 256 := f.isLt
  rw [Block.owns, full_ptEntry]
  split
  · rw [PtEntry.mk.injEq, ← BitVec.toNat_inj, BitVec.toNat_ofNat]
    simp only [true_and]
    omega
  · simp only [PtEntry.mk.injEq, Bool.false_eq_true, false_and, false_iff]
    omega

theorem full_resident {k : Policy} {p : Vpn} (h : (fullBlock k).resident p) : p.toNat < 256 := by
  rw [Block.resident, full_ptEntry] at h
  by_contra hn
  simp [hn] at h

theorem full_stamp_lru {k : Policy} {p : Vpn} (h : (fullBlock k).policy = .lru)
    (hp : p.toNat < 256) :
    ((fullBlock k).stamp p).toNat = if p.toNat = 0 then 257 else p.toNat + 1 := by
  rw [full_stamp, if_pos ⟨h, hp⟩]
  split
  · rfl
  · exact Nat.mod_eq_of_lt (by omega)

theorem tie_stamp (p : Vpn) : tieBlock.stamp p = 5 := by simp [Block.stamp, tieBlock]

/-- A5: LRU evicts page 1. -/
theorem test_lruVictim : lruVictim (fullBlock .lru) = some 1 := by
  have h1 : (fullBlock .lru).resident 1 := by
    rw [Block.resident, full_ptEntry]
    rfl
  rcases lruVictim_spec (fullBlock .lru) with ⟨-, h⟩ | ⟨v, hv, hr, hm⟩
  · exact absurd h1 (h 1)
  · rw [hv]
    by_contra hne
    have h := hm 1 h1 (fun h => hne (by rw [h]))
    have h1v : v.toNat ≠ (1 : Vpn).toNat := fun h => hne (by rw [BitVec.eq_of_toNat_eq h])
    have h1v : v.toNat ≠ 1 := h1v
    rw [BitVec.lt_def, ← BitVec.toNat_inj, full_stamp_lru rfl (full_resident hr),
      full_stamp_lru rfl (by decide)] at h
    have h : (if v.toNat = 0 then 257 else v.toNat + 1) < 2 ∨
      ((if v.toNat = 0 then 257 else v.toNat + 1) = 2 ∧ v.toNat < 1) := h
    split at h <;> omega

/-- A6: of equal timestamps the lowest page is evicted. -/
theorem test_lruVictim_tie : lruVictim tieBlock = some 0 := by
  have h0 : tieBlock.resident 0 := by
    rw [Block.resident, Block.ptEntry_congr (show tieBlock.pt = (fullBlock .lru).pt from rfl),
      full_ptEntry]
    rfl
  rcases lruVictim_spec tieBlock with ⟨-, h⟩ | ⟨v, hv, -, hm⟩
  · exact absurd h0 (h 0)
  · rw [hv]
    by_contra hne
    have h := hm 0 h0 (fun h => hne (by rw [h]))
    rw [tie_stamp, tie_stamp] at h
    rcases h with h | ⟨-, h⟩
    · exact absurd h (by decide)
    · exact absurd h (Nat.not_lt_zero _)

theorem full_inv (k : Policy) : (fullBlock k).Inv [] where
  pmWf := rfl
  counters := by cases k <;> decide
  tlbPtr := by cases k <;> rfl
  tlbUnique := by
    intro i j
    have hi : i.toNat < 16 := i.isLt
    have hj : j.toNat < 16 := j.isLt
    rw [full_slot, full_slot, ← BitVec.toNat_inj, ← BitVec.toNat_inj]
    intro _ _
    split <;> split <;> simp [PAGE_BITS] <;> omega
  tlbBound := by
    intro i _
    have hi : i.toNat < 16 := i.isLt
    rw [full_slot]
    split
    · exact ⟨0, (full_owns ..).2 rfl⟩
    · refine ⟨BitVec.ofNat 10 (240 + i.toNat), (full_owns ..).2 ?_⟩
      simp [PAGE_BITS, FRAME_BITS]
      omega
  ownerUnique := by
    intro p q f hp hq
    rw [full_owns] at hp hq
    rw [← BitVec.toNat_inj]
    omega
  boundFrames := by
    intro f
    have hf : f.toNat < 256 := f.isLt
    simp only [fullBlock, true_or, iff_true]
    refine ⟨BitVec.ofNat 10 f.toNat, (full_owns ..).2 ?_⟩
    simp [PAGE_BITS]
    omega
  allocPtr := by cases k <;> rfl
  fullAt := by simp [fullBlock, CNT_BITS, N_FRAMES]
  contents := by
    intros
    rfl
  stampsFifo := by
    intro h p
    rw [full_stamp]
    have h : k = .fifo := h
    simp [h]
  stampsLru := by
    intro h p hr
    have hp := full_resident hr
    rw [full_stamp_lru h hp]
    show _ ∧ _ ≤ 257
    split <;> omega
  stampsDistinct := by
    intro h p q hr hs he
    have hp := full_resident hr
    have hq := full_resident hs
    have he := congrArg BitVec.toNat he
    rw [full_stamp_lru h hp, full_stamp_lru h hq] at he
    rw [← BitVec.toNat_inj]
    split at he <;> split at he <;> omega
  coherentBeforeEviction := by
    intro _ i
    have hi : i.toNat < 16 := i.isLt
    rw [Block.not_stale_iff, full_slot]
    split
    · exact fun _ => (full_owns ..).2 rfl
    · intro _
      rw [full_owns]
      simp [PAGE_BITS, FRAME_BITS]
      omega
  owned := by cases k <;> decide

theorem full_tlbFilled (k : Policy) : (fullBlock k).tlbFilled := by
  intro i
  have hi : i.toNat < 16 := i.isLt
  rw [full_slot, show (fullBlock k).inserts = 257 by cases k <;> rfl]
  split <;> simp <;> omega

theorem full_ready (k : Policy) : (fullBlock k).ready := by cases k <;> exact ⟨rfl, by decide⟩

/-- Page 256 is in no slot and in no frame: a request for it is a fault that evicts. -/
theorem full_faultsOn (k : Policy) : (fullBlock k).faultsOn (vpnOf 262144) := by
  constructor
  · intro i
    have hi : i.toNat < 16 := i.isLt
    rw [Bool.eq_false_iff, ne_eq, TlbSlot.holds_iff, full_slot, ← BitVec.toNat_inj,
      show (vpnOf 262144).toNat = 256 by decide]
    split <;> simp [PAGE_BITS]
    omega
  · rw [full_ptEntry]
    rfl

theorem full_state_inv (k : Policy) : (holding (fullBlock k)).Inv :=
  ⟨rfl, fun _ => ⟨full_inv k, full_tlbFilled k⟩⟩

/-- The block after the fault on page 256 under FIFO: page 0 is evicted from frame 0, and its slot is
stale. -/
def staleBlock : Block :=
  afterFault [] 258 256 0
    (ptUnbind false (advanceCursor (countFault (countRequest (fullBlock .fifo)))) 0)

theorem selectFrame_fifo {b : Block} (hf : b.full = true) (hp : b.policy = .fifo) :
    selectFrame false b = fifoEvict false b := by
  simp [selectFrame, hf, hp]

theorem stale_select : selectFrame false (countFault (countRequest (fullBlock .fifo))) =
    .ok (ptUnbind false (advanceCursor (countFault (countRequest (fullBlock .fifo)))) 0, 0) := by
  have h : ptReverseLookup (countFault (countRequest (fullBlock .fifo))) 0 = some 0 :=
    (ptReverseLookup_eq_some_iff ..).2 ⟨(full_owns .fifo 0 0).2 rfl, fun _ h => absurd h (Nat.not_lt_zero _)⟩
  rw [selectFrame_fifo (b := countFault (countRequest (fullBlock .fifo))) rfl rfl]
  exact (fifoEvict_eq_ok_iff ..).2 ⟨0, h, rfl, rfl⟩

theorem stale_inv : staleBlock.Inv [] :=
  (full_inv .fifo).fault (full_ready .fifo).2 (p := 256) (full_faultsOn .fifo) stale_select

theorem stale_tlbFilled : staleBlock.tlbFilled := by
  intro i
  have hi : i.toNat < 16 := i.isLt
  have h := (full_tlbFilled .fifo i).2 (by rw [show (fullBlock .fifo).inserts = 257 from rfl]; omega)
  rw [show staleBlock.inserts = 258 by decide +kernel]
  constructor
  · intro _
    omega
  · intro _
    unfold staleBlock
    rw [afterFault_slot, ptUnbind_slot]
    split
    · rfl
    · exact h

/-- The fault on page 256 leaves `staleBlock`. -/
theorem translate_full : (translate false [] 262144 (fullBlock .fifo)).1 = staleBlock := by
  have ho : outcomeOf (countRequest (fullBlock .fifo)) (vpnOf 262144) = .pageFault :=
    (outcomeOf_eq_pageFault_iff ..).2
      ⟨(tlbLookup_eq_none_iff ..).2 (full_faultsOn .fifo).1, (full_faultsOn .fifo).2⟩
  rw [translate_ready (full_ready .fifo)]
  simp only [resolve, ho, pageIn, stale_select]
  rfl

theorem stale_state_inv : (holding staleBlock).Inv := ⟨rfl, fun _ => ⟨stale_inv, stale_tlbFilled⟩⟩

theorem stale_slot : staleBlock.slot 0 = ⟨true, 0, 0⟩ ∧ staleBlock.ptEntry 0 = ⟨false, 0⟩ := by
  decide +kernel

/-! ## Witnesses: what meets the hypotheses of each obligation -/

theorem witness_DecodeFollowsTheCommandMap :
    (0x0FFFFFFFF#34).extractLsb' 32 2 = 0b00#2 ∧ (0x1FFFFFFFF#34).extractLsb' 32 2 = 0b01#2 ∧
    (0x200000000#34).extractLsb' 32 2 = 0b10#2 ∧ (0x3FFFFFFFF#34).extractLsb' 32 2 = 0b11#2 := by
  decide

theorem witness_DecodeAndEncodeAgree :
    (Instr.translate 0xFFFFFFFF#32).wellFormed = true ∧ (Instr.readStats 1).wellFormed = true ∧
    decode 0x100000001#34 = .instr (.readStats 1) ∧ decode 0x200000000#34 = .reserved 2 := by decide

/-- Page 1023 and offset 1023; a state that answers XLATE and one that answers ERROR. -/
theorem witness_AddressesRepeatEveryTwentyBits :
    (1023 < 1024 ∧ (vpnOf (BitVec.ofNat 32 (1023 * 1024 + 1023))).toNat = 1023) ∧
    nextIs (exec (.translate 1029) fifo) (fun t => t.outbox == fifo.outbox ++ [.xlate 1029 5 42]) = true ∧
    nextIs (exec (.translate 1029) (holding (errBlock .reservedCommand)))
      (fun t => t.outbox == [.error 1]) = true := by decide +kernel

/-- Both levels of the input; and a step that is no reset, from a state with ERR set, FULL set and a
valid slot. -/
theorem witness_ResetLoadsEveryElementAndAloneClears :
    ({ fifo with inbox := [.reset] } : State).inbox = [.reset] ∧ fifo.policyInput = 0 ∧
    ({ lru with inbox := [.reset] } : State).inbox = [.reset] ∧ lru.policyInput = 1 ∧
    ∃ s t : State, step s = .next t ∧ (∀ m, s.inbox.head? = some m → m.isReset = false) ∧
      s.block.err ≠ .none ∧ s.block.full = true ∧ (s.block.slot 15).valid = true := by
  refine ⟨rfl, rfl, rfl, rfl, { holding { fullBlock .fifo with err := .reservedCommand } with
    inbox := [.request 0x200000000#34] }, _, rfl, ?_, ?_, rfl, ?_⟩
  · rintro m ⟨⟩
    rfl
  · decide
  · decide

theorem witness_PolicyInputIsSampledAtResetOnly :
    ({ fifo with inbox := [.reset] } : State).inbox = [.reset] ∧
    ({ fifo with inbox := [.drivePolicy 1] } : State).inbox = [.drivePolicy 1] ∧
    (∃ t, step { fifo with inbox := [.resetDuring 0#34] } = .next t) ∧
    (HostMove.resetDuring 0#34).isReset = true ∧
    ∃ s t : State, (∀ m, s.inbox.head? = some m → m.isReset = false ∧ ∀ l, m ≠ .drivePolicy l) ∧
      step s = .next t := by
  refine ⟨rfl, rfl, ⟨_, rfl⟩, rfl, { fifo with inbox := [.request 0#34] }, _, ?_, rfl⟩
  rintro m ⟨⟩
  exact ⟨rfl, fun _ => nofun⟩

theorem witness_ResetDuringARequestDiscardsIt :
    ({ fifo with inbox := [.resetDuring 0#34] } : State).wasReset = true ∧
    ({ fifo with inbox := [.resetDuring 0#34] } : State).inbox = [.resetDuring 0#34] := ⟨rfl, rfl⟩

theorem witness_RequestBeforeTheFirstResetIsRefused :
    ({ fifo with wasReset := false, inbox := [.request 0#34] } : State).wasReset = false ∧
    ({ fifo with wasReset := false, inbox := [.request 0#34] } : State).inbox = [.request 0#34] ∧
    (∃ s t : State, s.wasReset = false ∧ s.inbox = [.reset] ∧ step s = .next t ∧ t.wasReset = true) ∧
    ∃ s t : State, s.wasReset = false ∧ s.inbox = [.resetWithImage img] ∧ step s = .next t ∧
      t.wasReset = true ∧ (HostMove.resetWithImage img).isReset = true :=
  ⟨rfl, rfl, ⟨{ fifo with wasReset := false, inbox := [.reset] }, _, rfl, rfl, rfl, rfl⟩,
    { fifo with wasReset := false, inbox := [.resetWithImage img] }, _, rfl, rfl, rfl, rfl, rfl⟩

theorem witness_IdleBlockHoldsItsState :
    fifo.inbox = [] ∧ ∃ s t : State,
      (∀ m, s.inbox.head? = some m → ∃ level, m = .drivePolicy level) ∧ step s = .next t := by
  refine ⟨rfl, { fifo with inbox := [.drivePolicy 1] }, _, ?_, rfl⟩
  rintro m ⟨⟩
  exact ⟨1, rfl⟩

theorem witness_StepPerformsTheDecodedRequest :
    fifo.wasReset = true ∧ ({ fifo with inbox := [.request 0x405#34] } : State).inbox =
      [.request 0x405#34] ∧
    decode 0x405#34 = .instr (.translate 1029) ∧
    decodeTableWord 34 0x405 = some (.translate 1029) ∧
    decodeTableWord 40 0x1FFFFFFFF = some (.readStats 0xFFFFFFFF#32) := by decide

theorem witness_EveryRequestGetsOneResponse :
    fifo.wasReset = true ∧ ({ fifo with inbox := [.request 0x3FFFFFFFF#34] } : State).inbox =
      [.request 0x3FFFFFFFF#34] ∧
    (∃ s t : State, (∀ w rest, s.inbox ≠ .request w :: rest) ∧ step s = .next t) ∧
    ({ fifo with inbox := [.request 0#34, .request 1#34] } : State).inbox =
      [0#34, 1#34].map .request :=
  ⟨rfl, rfl, ⟨{ fifo with inbox := [.reset] }, _, fun _ _ => nofun, rfl⟩, rfl⟩

theorem witness_RunIsTheFoldOfItsRequests :
    fifo.wasReset = true ∧ ({ fifo with inbox := [.request 0#34, .request 0#34, .reset] } : State).inbox =
      [0#34, 0#34].map .request ++ [.reset] := ⟨rfl, rfl⟩

/-- A run with a reset; and a step that binds another image. -/
theorem witness_BackingImageIsFixedDuringARun :
    (∀ m ∈ ({ fifo with inbox := [.request 0#34, .reset] } : State).inbox.take 2,
      ∀ image, m ≠ .resetWithImage image) ∧
    (∃ t, run 2 { fifo with inbox := [.request 0#34, .reset] } = .next t) ∧
    ∃ t, step { fifo with inbox := [.resetWithImage []] } = .next t ∧ t.backing ≠ fifo.backing := by
  refine ⟨fun m hm image => ?_, ⟨_, rfl⟩, _, rfl, by decide⟩
  rcases List.mem_cons.1 hm with rfl | hm
  · nofun
  · rw [List.mem_singleton.1 hm]
    nofun

theorem witness_ReservedCommandRaisesItsFault :
    fifo.wasReset = true ∧ ({ fifo with inbox := [.request 0x3FFFFFFFF#34] } : State).inbox =
      [.request 0x3FFFFFFFF#34] ∧
    (0x200000000#34).extractLsb' 32 2 = 0b10#2 ∧ (0x3FFFFFFFF#34).extractLsb' 32 2 = 0b11#2 := by decide

/-- Once with ERR = NONE before the request, and once with an earlier fault. -/
theorem witness_BlockFaultsArePrecise :
    (∃ t, step { fifo with inbox := [.request 0x200000000#34] } = .next t ∧
      t.outbox = fifo.outbox ++ [.error 1]) ∧
    ∃ t, step { holding (errBlock .noFrameOwner) with inbox := [.request 0#34] } = .next t ∧
      t.outbox = [] ++ [.error 3] ∧ (holding (errBlock .noFrameOwner)).block.err ≠ .none :=
  ⟨⟨_, rfl, by decide⟩, _, rfl, by decide, by decide⟩

theorem witness_FaultedBlockRefusesUntilReset :
    (holding (errBlock .counterOverflow)).block.err ≠ .none ∧
    (holding (errBlock .counterOverflow)).wasReset = true ∧
    decode 0x200000000#34 = .reserved 2 ∧
    ∀ m ∈ [HostMove.request 0#34, .request 0x100000000#34, .reset].take 2, m.isReset = false := by
  decide

theorem witness_ReadStatsAnswersTheCounters :
    ({ fifo with inbox := [.reset] } : State).inbox = [.reset] := rfl

theorem witness_CounterOverflowStopsTranslate :
    (holding { Block.reset .fifo with total := 0xFFFFFFFF#32 }).block.err = .none ∧
    (holding { Block.reset .fifo with total := 0xFFFFFFFF#32 }).block.total = 0xFFFFFFFF#32 := ⟨rfl, rfl⟩

/-- A7 under both policies; and a state reached from reset. -/
theorem witness_NoFrameOwnerIsUnreachable :
    (∀ k : Policy, ∃ b : Block, b.policy = k ∧ b.ready ∧ b.faultsOn (vpnOf 0) ∧ b.full = true ∧
      (∀ p, ¬ b.owns p b.allocPtr) ∧ ∀ p, ¬ b.resident p) ∧ Reachable State.reset := by
  refine ⟨fun k => ⟨{ Block.reset k with full := true }, rfl, ⟨rfl, ?_⟩, ⟨fun i => ?_, ?_⟩, rfl,
    fun p => ?_, fun p => ?_⟩, 0, [], [], 0, rfl, rfl⟩
  · cases k <;> decide
  · exact congrArg (fun e => TlbSlot.holds e _) (Block.reset_slot k i)
  · exact congrArg PtEntry.valid (Block.reset_ptEntry k _)
  · intro h
    exact absurd ((Block.reset_ptEntry k p).symm.trans h) (by simp)
  · intro h
    have := (congrArg PtEntry.valid (Block.reset_ptEntry k p)).symm.trans h
    simp at this

/-- A word for each line of the order, and the states of the third and the fourth. -/
theorem witness_PriorityWithinOneRequest :
    (0x200000000#34).extractLsb' 32 2 = 0b10#2 ∧ (0x3FFFFFFFF#34).extractLsb' 32 2 = 0b11#2 ∧
    (0x100000000#34).extractLsb' 32 2 = 0b01#2 ∧ (0x0FFFFFFFF#34).extractLsb' 32 2 = 0b00#2 ∧
    (errBlock .reservedCommand).err ≠ .none ∧
    ({ Block.reset .fifo with total := 0xFFFFFFFF#32 } : Block).err = .none ∧
    ({ Block.reset .fifo with total := 0xFFFFFFFE#32 } : Block).total ≠ 0xFFFFFFFF#32 ∧
    fifo.wasReset = true := by decide

/-- The last slot, with the page in no lower one. -/
theorem witness_TlbHitWritesOnlyTotalAndHits :
    (fullBlock .lru).ready ∧ ((fullBlock .lru).slot 15).valid = true ∧
    ((fullBlock .lru).slot 15).vpn = vpnOf 261120 ∧
    ∀ j : TlbIndex, j.toNat < (15 : TlbIndex).toNat → ¬ (((fullBlock .lru).slot j).valid = true ∧
      ((fullBlock .lru).slot j).vpn = vpnOf 261120) := by
  refine ⟨full_ready _, by decide +kernel, by decide +kernel, ?_⟩
  rintro j hj ⟨-, h⟩
  have hj : j.toNat < 15 := hj
  rw [full_slot, ← BitVec.toNat_inj, show (vpnOf 261120).toNat = 255 by decide] at h
  split at h
  · exact absurd h (by decide)
  · simp only [BitVec.toNat_ofNat, PAGE_BITS, Nat.reducePow] at h
    omega

theorem table_misses (k : Policy) (p : Vpn) : (tableBlock k).tlbMisses p := fun i =>
  congrArg (fun e => TlbSlot.holds e p) (Block.reset_slot k i)

theorem witness_TableHitRefreshesAndInserts : ∀ k : Policy,
    (tableBlock k).ready ∧ (tableBlock k).tlbMisses (vpnOf 1033) ∧
    (tableBlock k).ptEntry (vpnOf 1033) = ⟨true, 0⟩ ∧ (tableBlock k).policy = k := fun k =>
  ⟨by cases k <;> exact ⟨rfl, by decide⟩, table_misses k _, by cases k <;> decide +kernel,
    by cases k <;> rfl⟩

theorem reset_faultsOn (k : Policy) (p : Vpn) : (Block.reset k).faultsOn p :=
  ⟨fun i => by rw [Block.reset_slot]; rfl, by rw [Block.reset_ptEntry]⟩

theorem reset_ready (k : Policy) : (Block.reset k).ready := ⟨rfl, by cases k <;> decide⟩

/-- With the first frame free, and with only the last one free. -/
theorem witness_FaultTakesTheNextFreeFrame : ∀ f : FrameNo,
    ({ Block.reset .fifo with allocPtr := f } : Block).ready ∧ Memory.wf PM_SIZE [] = true ∧
    ({ Block.reset .fifo with allocPtr := f } : Block).faultsOn (vpnOf 1029) ∧
    ({ Block.reset .fifo with allocPtr := f } : Block).full = false := fun _ =>
  ⟨reset_ready .fifo, rfl, reset_faultsOn .fifo _, rfl⟩

/-- With the cursor at the first frame, and at the last one. -/
theorem witness_FifoFaultEvictsTheOwnerAtTheCursor : ∀ f : FrameNo,
    ({ fullBlock .fifo with allocPtr := f } : Block).ready ∧ Memory.wf PM_SIZE [] = true ∧
    ({ fullBlock .fifo with allocPtr := f } : Block).faultsOn (vpnOf 262144) ∧
    ∃ q : Vpn, (fullBlock .fifo).ptEntry q = ⟨true, f⟩ ∧
      ∀ p : Vpn, p.toNat < q.toNat → (fullBlock .fifo).ptEntry p ≠ ⟨true, f⟩ := fun f => by
  refine ⟨full_ready .fifo, rfl, full_faultsOn .fifo, BitVec.ofNat 10 f.toNat,
    (full_owns ..).2 ?_, fun p hp ho => ?_⟩
  · have hf : f.toNat < 256 := f.isLt
    simp [PAGE_BITS]
    omega
  · have hf : f.toNat < 256 := f.isLt
    have ho := (full_owns ..).1 ho
    have hp : p.toNat < f.toNat % 1024 := hp
    omega

/-- A5: the smallest timestamp is page 1's. -/
theorem witness_LruFaultEvictsTheSmallestTimestamp :
    (fullBlock .lru).ready ∧ Memory.wf PM_SIZE (fullBlock .lru).pm = true ∧
    (fullBlock .lru).faultsOn (vpnOf 262144) ∧ (fullBlock .lru).full = true ∧
    (fullBlock .lru).policy = .lru ∧ (fullBlock .lru).ptEntry 1 = ⟨true, 1⟩ ∧
    ∀ p, (fullBlock .lru).resident p → p ≠ 1 →
      ((fullBlock .lru).stamp 1).toNat < ((fullBlock .lru).stamp p).toNat ∨
      ((fullBlock .lru).stamp 1 = (fullBlock .lru).stamp p ∧ (1 : Vpn).toNat < p.toNat) := by
  refine ⟨full_ready _, rfl, full_faultsOn _, rfl, rfl, (full_owns ..).2 rfl, fun p hr hp => .inl ?_⟩
  have h1 : p.toNat ≠ (1 : Vpn).toNat := fun h => hp (BitVec.eq_of_toNat_eq h)
  have h1 : p.toNat ≠ 1 := h1
  rw [full_stamp_lru rfl (full_resident hr), full_stamp_lru rfl (by decide)]
  show 2 < if p.toNat = 0 then 257 else p.toNat + 1
  split <;> omega

/-- A6: of equal timestamps, page 0's. -/
theorem witness_LruFault_tie : ∀ p : Vpn, p ≠ 0 →
    tieBlock.stamp 0 = tieBlock.stamp p ∧ (0 : Vpn).toNat < p.toNat := by
  intro p hp
  have h0 : p.toNat ≠ (0 : Vpn).toNat := fun h => hp (BitVec.eq_of_toNat_eq h)
  exact ⟨by rw [tie_stamp, tie_stamp], Nat.pos_of_ne_zero h0⟩

theorem witness_TranslateCompletes :
    (holding (fullBlock .lru)).Inv ∧ (holding (fullBlock .lru)).wasReset = true ∧
    (holding (fullBlock .lru)).block.ready := ⟨full_state_inv _, rfl, full_ready _⟩

/-- A fault, a TLB hit and a table hit, each with its response. -/
theorem witness_ExactlyOneOutcome :
    (∃ t, exec (.translate 1029) fifo = .next t ∧ t.outbox = fifo.outbox ++ [.xlate 1029 5 42]) ∧
    (∃ t, exec (.translate 1029) (holding (oneBlock .fifo)) = .next t ∧
      t.outbox = [] ++ [.xlate 1029 5 0] ∧ outcomeOf (oneBlock .fifo) 1 = .tlbHit 0) ∧
    ∃ t, exec (.translate 1029) (holding (tableBlock .fifo)) = .next t ∧
      t.outbox = [] ++ [.xlate 1029 5 0] ∧ outcomeOf (tableBlock .fifo) 1 = .tableHit 0 :=
  ⟨⟨_, rfl, by decide +kernel⟩, ⟨_, rfl, by decide +kernel, by decide +kernel⟩, _, rfl,
    by decide +kernel, by decide +kernel⟩

theorem witness_OrdinalIsTheNumberOfCompletedRequests :
    (∃ t, exec (.translate 1029) fifo = .next t ∧ t.outbox = fifo.outbox ++ [.xlate 1029 5 42]) ∧
    ∃ t, exec (.translate 0) (holding (errBlock .reservedCommand)) = .next t ∧
      t.outbox = [] ++ [.error 1] := ⟨⟨_, rfl, by decide +kernel⟩, _, rfl, by decide⟩

/-- Under FIFO; a TLB hit under LRU; and a table hit under LRU. -/
theorem witness_TimestampsFollowTableLevelAccesses :
    (∃ t, exec (.translate 1029) fifo = .next t ∧ t.outbox = [] ++ [.xlate 1029 5 42] ∧
      fifo.block.policy = .fifo) ∧
    (∃ t, exec (.translate 1029) (holding (oneBlock .lru)) = .next t ∧
      t.outbox = [] ++ [.xlate 1029 5 0] ∧ ¬ (oneBlock .lru).tlbMisses 1) ∧
    ∃ t, exec (.translate 1029) (holding (tableBlock .lru)) = .next t ∧
      t.outbox = [] ++ [.xlate 1029 5 0] ∧ (tableBlock .lru).policy = .lru ∧
      (tableBlock .lru).tlbMisses (vpnOf 1029) :=
  ⟨⟨_, rfl, by decide +kernel, rfl⟩,
    ⟨_, rfl, by decide +kernel, fun h => absurd (h 0) (by decide +kernel)⟩,
    _, rfl, by decide +kernel, rfl, table_misses _ _⟩

theorem witness_TlbInsertExactlyOnAMiss :
    (∃ t, exec (.translate 1029) (holding (oneBlock .fifo)) = .next t ∧
      t.outbox = [] ++ [.xlate 1029 5 0] ∧ ¬ (oneBlock .fifo).tlbMisses (vpnOf 1029)) ∧
    ∃ t, exec (.translate 1029) fifo = .next t ∧ t.outbox = [] ++ [.xlate 1029 5 42] ∧
      fifo.block.tlbMisses (vpnOf 1029) :=
  ⟨⟨_, rfl, by decide +kernel, fun h => absurd (h 0) (by decide +kernel)⟩,
    _, rfl, by decide +kernel, (reset_faultsOn .fifo _).1⟩

/-- Each of the three outcomes; an unbound page; a fault that sets FULL; a frame selected. -/
theorem witness_TranslateWritesOnlyWhatItsOutcomeSays :
    Memory.wf PM_SIZE (oneBlock .fifo).pm = true ∧
    outcomeOf (oneBlock .fifo) (vpnOf 1029) = .tlbHit 0 ∧
    outcomeOf (tableBlock .fifo) (vpnOf 1029) = .tableHit 0 ∧
    outcomeOf (Block.reset .fifo) (vpnOf 1029) = .pageFault ∧
    nextIs (exec (.translate 2048) (holding { oneBlock .fifo with full := true, allocPtr := 0 }))
      (fun t => (t.block.ptEntry 1).valid != ((oneBlock .fifo).ptEntry 1).valid) = true ∧
    nextIs (exec (.translate 1029) (holding { Block.reset .fifo with allocPtr := 255 }))
      (fun t => t.block.full != (Block.reset .fifo).full) = true ∧
    (selectFrame INVALIDATE_ON_UNBIND (countFault (countRequest (Block.reset .fifo)))).toOption.map
      Prod.snd = some 0 := by decide +kernel

theorem witness_OnlyAPageLoadWritesPhysicalMemory :
    Memory.wf PM_SIZE [] = true ∧
    (∀ m, ({ fifo with inbox := [.request 0x405#34] } : State).inbox.head? = some m →
      m.isReset = false) ∧
    ∃ t, step { fifo with inbox := [.request 0x405#34] } = .next t ∧
      memRead t.block (physAddr 0 5) ≠ memRead fifo.block (physAddr 0 5) := by
  refine ⟨rfl, ?_, _, rfl, by decide +kernel⟩
  rintro m ⟨⟩
  rfl

/-- Sixteen inserts, of which the first one answers. -/
theorem witness_TlbHoldsTheLastSixteenInserts :
    Reachable State.reset ∧
    ∃ l : List (Vpn × FrameNo), 16 ≤ l.length ∧
      tlbLookup (l.foldl (fun c e => tlbInsert c e.1 e.2) (Block.reset .fifo)) 0 = some 0 :=
  ⟨⟨0, [], [], 0, rfl, rfl⟩, (List.range 16).map fun k => (BitVec.ofNat 10 k, BitVec.ofNat 8 k),
    by decide, by decide +kernel⟩

theorem witness_ResidentPagesFillTheFrames : Reachable State.reset := ⟨0, [], [], 0, rfl, rfl⟩

theorem witness_FifoEvictsFramesInTurn :
    (holding (fullBlock .fifo)).Inv ∧ (holding (fullBlock .fifo)).wasReset = true ∧
    (fullBlock .fifo).ready ∧ (fullBlock .fifo).policy = .fifo ∧ (fullBlock .fifo).full = true ∧
    (fullBlock .fifo).faultsOn (vpnOf 262144) :=
  ⟨full_state_inv _, rfl, full_ready _, rfl, rfl, full_faultsOn _⟩

/-- Pages 0 to 256 in order (L1.5). -/
theorem witness_FirstPageLoadedIsFirstEvicted :
    ((List.range 257).map fun p => BitVec.ofNat 32 (p * 1024)).length = 257 ∧
    (((List.range 257).map fun p => (BitVec.ofNat 32 (p * 1024) : Va)).map vpnOf).Nodup := by
  refine ⟨by simp, ?_⟩
  rw [List.map_map]
  refine List.Nodup.map_on ?_ List.nodup_range
  intro p hp q hq h
  have hp := List.mem_range.1 hp
  have hq := List.mem_range.1 hq
  have h : (vpnOf (BitVec.ofNat 32 (p * 1024))).toNat = (vpnOf (BitVec.ofNat 32 (q * 1024))).toNat :=
    congrArg BitVec.toNat h
  rw [vpnOf_toNat, vpnOf_toNat] at h
  have h : p * 1024 % 4294967296 / 1024 % 1024 = q * 1024 % 4294967296 / 1024 % 1024 := h
  omega

theorem witness_LruEvictsTheLeastRecentlyUsedPage :
    (holding (fullBlock .lru)).Inv ∧ (holding (fullBlock .lru)).wasReset = true ∧
    (fullBlock .lru).ready ∧ (fullBlock .lru).policy = .lru ∧ (fullBlock .lru).full = true ∧
    (fullBlock .lru).faultsOn (vpnOf 262144) :=
  ⟨full_state_inv _, rfl, full_ready _, rfl, rfl, full_faultsOn _⟩

/-- A fault before the first eviction, with no slot that holds its page; a stale hit; and the variant. -/
theorem witness_DataByteIsTheOwnersByte :
    (State.reset.Inv ∧ State.reset.wasReset = true ∧ State.reset.block.evictions = 0 ∧
      (∀ i, (State.reset.block.slot i).holds (vpnOf 1029) = true →
        ¬ State.reset.block.stale (State.reset.block.slot i)) ∧
      ∃ t, exec (.translate 1029) State.reset = .next t ∧ t.outbox = [] ++ [.xlate 1029 5 0]) ∧
    ((holding staleBlock).Inv ∧ (holding staleBlock).wasReset = true ∧
      (staleBlock.slot 0).holds (vpnOf 5) = true ∧ staleBlock.stale (staleBlock.slot 0) ∧
      ∃ t, exec (.translate 5) (holding staleBlock) = .next t ∧ t.outbox = [] ++ [.xlate 5 5 0]) ∧
    .xlate 1029 5 42 ∈ (serveAll true img [0x405#34] (Block.reset .fifo)).2 := by
  refine ⟨⟨⟨rfl, fun _ => ⟨Block.inv_reset _ _, Block.tlbFilled_reset _⟩⟩, rfl, rfl, fun i h => ?_, _,
    rfl, by decide +kernel⟩, ⟨stale_state_inv, rfl, ?_, ?_, _, rfl, by decide +kernel⟩,
    by decide +kernel⟩
  · rw [show State.reset.block.slot i = _ from Block.reset_slot .fifo i] at h
    exact absurd h (by simp [TlbSlot.holds])
  · rw [stale_slot.1]
    decide
  · rw [Block.stale, stale_slot.1, stale_slot.2]
    exact ⟨rfl, .inl rfl⟩

theorem witness_VariantKeepsTheTlbCoherent :
    Reachable State.reset ∧
    ((serveAll true img [0x405#34] (Block.reset .fifo)).1.slot 0).valid = true :=
  ⟨⟨0, [], [], 0, rfl, rfl⟩, by decide +kernel⟩

theorem witness_EvictionLeavesAStaleHit :
    ((holding (fullBlock .fifo)).Inv ∧ (holding (fullBlock .fifo)).wasReset = true ∧
      (fullBlock .fifo).err = .none ∧ (fullBlock .fifo).total.toNat + 2 < 2 ^ 32 ∧
      (fullBlock .fifo).slot 0 = ⟨true, vpnOf 5, 0⟩ ∧ (fullBlock .fifo).owns (vpnOf 5) 0 ∧
      (0 : TlbIndex) ≠ (fullBlock .fifo).tlbPtr ∧
      ∃ t, exec (.translate 262144) (holding (fullBlock .fifo)) = .next t ∧
        ¬ t.block.resident (vpnOf 5)) ∧
    (staleBlock.slot 0).holds 0 = true ∧ ¬ staleBlock.resident 0 ∧
    ∃ t, step { holding staleBlock with inbox := [.request 0#34] } = .next t := by
  have h0 : ¬ staleBlock.resident 0 := by
    rw [Block.resident, stale_slot.2]
    simp
  refine ⟨⟨full_state_inv _, rfl, rfl, by decide, by decide +kernel, (full_owns ..).2 rfl, by decide,
    _, rfl, ?_⟩, ?_, h0, _, rfl⟩
  · rw [State.answer_block]
    exact translate_full ▸ h0
  · rw [stale_slot.1]
    rfl

theorem witness_ResetContentsOfMemoryAreNeverObserved : Memory.wf PM_SIZE [(262143, 7)] = true := by
  decide

theorem witness_EndOfRunObservationOfATrace :
    ({ fifo with wasReset := false, inbox := traceMoves [-1, 0] } : State).wasReset = false ∧
    fifo.outbox = [] ∧ [(-1 : Int), 0].length < 2 ^ 32 := by decide

theorem witness_ResetMeetsTheInvariants : Memory.wf VA_SPACE img = true := by decide

theorem witness_EveryStepKeepsTheInvariants :
    ({ State.reset with inbox := [.request 0x405#34] } : State).Inv ∧
    ∃ t, step { State.reset with inbox := [.request 0x405#34] } = .next t :=
  ⟨⟨rfl, fun _ => ⟨Block.inv_reset _ _, Block.tlbFilled_reset _⟩⟩, _, rfl⟩

/-- A state reached by one request after reset. -/
theorem witness_ReachableStatesMeetTheInvariants :
    ∃ s, Reachable s ∧ s.block.ptEntry 1 = ⟨true, 0⟩ :=
  ⟨_, ⟨0, img, [.request 0x405#34], 1, by decide, rfl⟩, by decide +kernel⟩

theorem witness_BackingAddressIsPageTimes1024PlusOffset :
    Memory.wf PM_SIZE [(262143, 7)] = true ∧ 1023 < 1024 ∧ 261119 / 1024 ≠ (255 : FrameNo).toNat := by
  decide

/-- A TLB hit, a table hit, and a fault with a frame selected. -/
theorem witness_XlateAnswersTheResolvedFrame :
    (∃ t, exec (.translate 1029) (holding (oneBlock .fifo)) = .next t ∧
      t.outbox = [] ++ [.xlate 1029 5 0] ∧ ((oneBlock .fifo).slot 0).holds (vpnOf 1029) = true ∧
      ∀ j : TlbIndex, j.toNat < (0 : TlbIndex).toNat →
        ((oneBlock .fifo).slot j).holds (vpnOf 1029) = false) ∧
    (∃ t, exec (.translate 1029) (holding (tableBlock .fifo)) = .next t ∧
      t.outbox = [] ++ [.xlate 1029 5 0] ∧ (tableBlock .fifo).tlbMisses (vpnOf 1029) ∧
      (tableBlock .fifo).ptEntry (vpnOf 1029) = ⟨true, 0⟩) ∧
    ∃ t, exec (.translate 1029) fifo = .next t ∧ t.outbox = [] ++ [.xlate 1029 5 42] ∧
      fifo.block.faultsOn (vpnOf 1029) ∧ Memory.wf PM_SIZE fifo.block.pm = true ∧
      ∃ b g, selectFrame INVALIDATE_ON_UNBIND (countFault (countRequest fifo.block)) = .ok (b, g) :=
  ⟨⟨_, rfl, by decide +kernel, by decide +kernel, fun _ h => absurd h (Nat.not_lt_zero _)⟩,
    ⟨_, rfl, by decide +kernel, table_misses _ _, by decide +kernel⟩,
    _, rfl, by decide +kernel, reset_faultsOn .fifo _, rfl, _, _, rfl⟩

/-- An image of 2^20 bytes; and a list with an address past its end, one that is not rising, and one that
names a byte of the value an unlisted one reads as. -/
theorem witness_ResetWithImageBeginsARunOnIt :
    ({ fifo with inbox := [.resetWithImage img] } : State).inbox = [.resetWithImage img] ∧
    Memory.wf VA_SPACE img = true ∧ Memory.wf VA_SPACE [(1048576, 1)] = false ∧
    Memory.wf VA_SPACE [(1, 1), (0, 1)] = false ∧ Memory.wf VA_SPACE [(0, 0)] = false := by decide

end Sys2Proof.Tests
end

/-! ## The geometry (00_scope.md R8) -/

section
namespace Sys2Proof.Proofs.Scope

open Config

/-- Settles O50: the seven named laws of the parameters, one for each relation of R8, and `relations_hold`,
which says that the list of them in `Config` holds too. -/
theorem geometryRelations : Obligations.GeometryRelations := by
  unfold Obligations.GeometryRelations
  exact ⟨page_size_eq, n_pages_eq, va_used_bits_eq, n_frames_eq, pa_bits_eq, n_frames_lt_n_pages,
    tlb_size_eq, relations_hold⟩

end Sys2Proof.Proofs.Scope
end

/-! ## Memory, address spaces and ordering (20_memory.md) -/

section
namespace Sys2Proof.Proofs.Memory

open Config Machine

/-! ### Addresses as numbers (R51, R52) -/

/-- A physical address as the source computes it (R52). -/
theorem physAddr_eq_shift_or (f : FrameNo) (o : Offset) :
    physAddr f o = (f.setWidth 18 <<< 10) ||| o.setWidth 18 := by
  unfold physAddr
  rw [BitVec.append_def, BitVec.shiftLeftZeroExtend_eq, BitVec.setWidth'_eq]
  rfl

/-- The frame and the offset of a physical address are its quotient and its remainder by 1024 (R52). -/
theorem frameOf_physOffset_toNat (pa : PhysAddr) :
    (frameOf pa).toNat = pa.toNat / 1024 ∧ (physOffset pa).toNat = pa.toNat % 1024 := by
  have h := physAddr_toNat (frameOf pa) (physOffset pa)
  rw [physAddr_frameOf_physOffset] at h
  have ho : (physOffset pa).toNat < 1024 := (physOffset pa).isLt
  omega

/-- Settles O51, by taking a physical address apart into its frame and its offset. -/
theorem physicalAddressIsFrameTimes1024PlusOffset :
    Obligations.PhysicalAddressIsFrameTimes1024PlusOffset := by
  unfold Obligations.PhysicalAddressIsFrameTimes1024PlusOffset
  refine ⟨fun f o => ⟨physAddr_toNat f o, physAddr_eq_shift_or f o⟩, fun _ _ => rfl, fun pa => ?_⟩
  obtain ⟨hf, ho⟩ := frameOf_physOffset_toNat pa
  exact ⟨frameOf pa, physOffset pa, (physAddr_frameOf_physOffset pa).symm, hf, ho⟩

/-- A multiple of 2^20 leaves the low 20 bits of a virtual address (R51). -/
theorem add_mul_toNat_mod (va : Va) (k : Int) :
    (va + BitVec.ofInt 32 (k * 1048576)).toNat % 1048576 = va.toNat % 1048576 := by
  have h : (BitVec.ofInt 32 (k * 1048576)).toNat % 1048576 = 0 := by
    rw [BitVec.toNat_ofInt]
    omega
  rw [BitVec.toNat_add]
  show (_ + _) % 4294967296 % 1048576 = _
  omega

/-- A response with another virtual address echoed. -/
def echoing (va : Va) : Response → Response
  | .xlate _ pa d => .xlate va pa d
  | .stats total faults hits err => .stats total faults hits err
  | .error err => .error err

/-- TRANSLATE reads the page number and the offset of its operand alone, but for the echo (R51, R84). -/
theorem translate_congr {va va' : Va} (hv : vpnOf va' = vpnOf va) (ho : offsetOf va' = offsetOf va)
    (inv : Bool) (image : Memory) (b : Block) :
    translate inv image va' b =
      ((translate inv image va b).1, echoing va' (translate inv image va b).2) := by
  unfold Machine.translate
  rw [hv]
  split
  · rfl
  · split
    · rfl
    · split
      · rfl
      · simp [finishXlate, echoing, ho]

/-- Settles O6: the page number and the offset do not see a multiple of 2^20, and TRANSLATE sees
nothing else of its operand. -/
theorem addressesRepeatEveryTwentyBits : Obligations.AddressesRepeatEveryTwentyBits := by
  unfold Obligations.AddressesRepeatEveryTwentyBits
  refine ⟨fun p o hp ho => ?_, fun s va k => ?_⟩
  · have h : (BitVec.ofNat 32 (p * 1024 + o)).toNat = p * 1024 + o := Nat.mod_eq_of_lt (by omega)
    rw [vpnOf_toNat, offsetOf_toNat, h]
    omega
  · obtain ⟨hv, ho⟩ := vpnOf_offsetOf_congr (add_mul_toNat_mod va k)
    have h := translate_congr hv ho INVALIDATE_ON_UNBIND s.backing s.block
    refine ⟨_, _, _, _, rfl, rfl, rfl, rfl, (congrArg Prod.fst h :), fun e he => ?_, fun pa d hx => ?_⟩
    · rw [h, he]
      rfl
    · rw [h, hx]
      rfl

/-! ### The page load at numbered addresses (R55, R149) -/

/-- Past the size of a canonical memory, every address is unlisted. -/
theorem read_beyond {size x : Nat} (hx : size ≤ x) :
    ∀ {m : Memory} {lo : Nat}, Memory.wfFrom size lo m = true → Memory.read m x = UNLISTED_BYTE
  | [], _, _ => rfl
  | (a, v) :: m, _, hm => by
    obtain ⟨-, ha, -, hm'⟩ := Memory.wfFrom_cons.1 hm
    rw [Memory.read_cons, if_neg (by omega)]
    exact read_beyond hx hm'

/-- A page load puts byte `j` of the page at byte `j` of the frame (R149). -/
theorem loadPage_read_frame {image : Memory} {b : Block} {p : Vpn} {f : FrameNo}
    (h : Memory.wf PM_SIZE b.pm = true) {j : Nat} (hj : j < 1024) :
    (loadPage image b p f).pm.read (f.toNat * 1024 + j) = image.read (p.toNat * 1024 + j) := by
  have hr := memRead_loadPage (image := image) (p := p) (f := f) h f (BitVec.ofNat _ j)
  have hj' : (BitVec.ofNat OFFSET_BITS j).toNat = j := Nat.mod_eq_of_lt hj
  simpa only [memRead, backingRead, physAddr_toNat, backAddr_toNat, hj', if_true] using hr

/-- A page load leaves every address outside its frame, those past the physical memory's size too
(R149). -/
theorem loadPage_read_other {image : Memory} {b : Block} {p : Vpn} {f : FrameNo}
    (h : Memory.wf PM_SIZE b.pm = true) {a : Nat} (ha : a / 1024 ≠ f.toNat) :
    (loadPage image b p f).pm.read a = b.pm.read a := by
  rcases Nat.lt_or_ge a PM_SIZE with hlt | hge
  · obtain ⟨pa, rfl⟩ : ∃ pa : PhysAddr, a = pa.toNat :=
      ⟨BitVec.ofNat _ a, (Nat.mod_eq_of_lt hlt).symm⟩
    have hf : f ≠ frameOf pa := fun hf => ha (hf ▸ (frameOf_physOffset_toNat pa).1.symm)
    have hr := memRead_loadPage (image := image) (p := p) (f := f) h (frameOf pa) (physOffset pa)
    rw [if_neg hf, physAddr_frameOf_physOffset] at hr
    exact hr
  · rw [read_beyond hge (loadPage_wf h), read_beyond hge h]

/-- Settles O52: the addresses as numbers, and the page load at them. -/
theorem backingAddressIsPageTimes1024PlusOffset :
    Obligations.BackingAddressIsPageTimes1024PlusOffset := by
  unfold Obligations.BackingAddressIsPageTimes1024PlusOffset
  refine ⟨backAddr_toNat, fun va => ?_, fun _ _ => rfl, fun image b p f h => ?_⟩
  · exact ⟨usedBits_toNat va, (backAddr_vpnOf_offsetOf va).symm, vpnOf_toNat va, offsetOf_toNat va⟩
  · exact ⟨loadPage_eq image b p f, fun _ => loadPage_read_frame h, fun _ => loadPage_read_other h⟩

/-! ### Who writes the physical memory (R54) -/

/-- Frame selection leaves the physical memory (R141). -/
theorem selectFrame_pm {inv : Bool} {b c : Block} {f : FrameNo}
    (h : selectFrame inv b = .ok (c, f)) : c.pm = b.pm := by
  rcases selectFrame_ok h with ⟨-, -, rfl⟩ | ⟨-, v, -, rfl, -⟩
  · rfl
  · simp

/-- `faultsOn` is the outcome of a page fault (R171). -/
theorem faultsOn_iff_outcomeOf (b : Block) (p : Vpn) :
    b.faultsOn p ↔ outcomeOf b p = .pageFault := by
  rw [outcomeOf_eq_pageFault_iff, tlbLookup_eq_none_iff]
  rfl

/-- The pipeline changes a byte only by the page load of a fault, into the frame that the page table
then gives for the page (R54, R149, R175). -/
theorem resolve_changed_byte {inv : Bool} {image : Memory} {ord : Count} {p : Vpn} {b c : Block}
    {f g : FrameNo} {off : Offset} (hw : Memory.wf PM_SIZE b.pm = true)
    (h : resolve inv image ord p b = .ok (c, f))
    (hne : memRead c (physAddr g off) ≠ memRead b (physAddr g off)) :
    outcomeOf b p = .pageFault ∧ c.ptEntry p = ⟨true, g⟩ ∧
      memRead c (physAddr g off) = backingRead image (backAddr p off) := by
  rcases resolve_ok h with ⟨-, rfl⟩ | ⟨-, rfl⟩ | ⟨ho, c', hs, rfl⟩
  · exact absurd (memRead_congr (by simp) _) hne
  · exact absurd (memRead_congr (by simp) _) hne
  · have hpm : c'.pm = b.pm := (selectFrame_pm hs).trans (countFault_pm b)
    have hr := afterFault_memRead (image := image) (ord := ord) (p := p) (f := f) (hpm ▸ hw) g off
    by_cases hfg : f = g
    · rw [if_pos hfg] at hr
      exact ⟨ho, (afterFault_owns ..).2 (.inl ⟨rfl, hfg⟩), hr⟩
    · rw [if_neg hfg, memRead_congr hpm] at hr
      exact absurd hr hne

/-- A TRANSLATE changes a byte only by the page load of a fault (R54). -/
theorem translate_changed_byte {inv : Bool} {image : Memory} {va : Va} {b : Block} {g : FrameNo}
    {off : Offset} (hw : Memory.wf PM_SIZE b.pm = true)
    (hne : memRead (translate inv image va b).1 (physAddr g off) ≠ memRead b (physAddr g off)) :
    b.faultsOn (vpnOf va) ∧ (translate inv image va b).1.ptEntry (vpnOf va) = ⟨true, g⟩ ∧
      memRead (translate inv image va b).1 (physAddr g off) =
        backingRead image (backAddr (vpnOf va) off) := by
  rcases translate_cases inv image va b with
    ⟨-, ht⟩ | ⟨-, -, ht⟩ | ⟨-, e, -, ht⟩ | ⟨-, ⟨c, f⟩, hr, ht⟩ <;> rw [ht] at hne ⊢
  · exact absurd rfl hne
  · exact absurd rfl hne
  · exact absurd rfl hne
  · rw [faultsOn_iff_outcomeOf, ← outcomeOf_countRequest]
    exact resolve_changed_byte (b := countRequest b) hw hr hne

/-- A request that changes a byte is a TRANSLATE: the others leave the physical memory (R54). -/
theorem serve_changed_byte {inv : Bool} {image : Memory} {w : ReqWord} {b : Block} {pa : PhysAddr}
    (hne : memRead (serve inv image w b).1 pa ≠ memRead b pa) :
    ∃ va, decode w = .instr (.translate va) ∧ serve inv image w b = translate inv image va b := by
  unfold serve at hne ⊢
  cases hd : decode w with
  | instr i =>
    cases i with
    | translate va => exact ⟨va, rfl, rfl⟩
    | readStats operand => exact absurd (by rw [hd]; rfl) hne
  | reserved c => exact absurd (by rw [hd]; rfl) hne

/-- A step that is no reset and changes the block performs a request. -/
theorem step_changed_block {s t : State} (h : step s = .next t)
    (hm : ∀ m, s.inbox.head? = some m → m.isReset = false) (hb : t.block ≠ s.block) :
    ∃ w rest, s.inbox = .request w :: rest ∧
      t.block = (serve INVALIDATE_ON_UNBIND s.backing w s.block).1 := by
  rcases step_cases h with ⟨-, rfl⟩ | ⟨b, rest, hi, rfl⟩ | ⟨rest, hi, -⟩ | ⟨image, rest, hi, -⟩ |
    ⟨w, rest, hi, -⟩ | ⟨w, rest, hi, -, rfl⟩
  · exact absurd rfl hb
  · exact absurd rfl hb
  · exact absurd (hm .reset (by rw [hi]; rfl)) (by decide)
  · exact absurd (hm (.resetWithImage image) (by rw [hi]; rfl)) Bool.noConfusion
  · exact absurd (hm (.resetDuring w) (by rw [hi]; rfl)) Bool.noConfusion
  · exact ⟨w, rest, hi, rfl⟩

/-- Settles O34: the law of `MemWrite`; and of the moves only a request, of the requests only a
TRANSLATE, and of its outcomes only a fault changes a byte. -/
theorem onlyAPageLoadWritesPhysicalMemory : Obligations.OnlyAPageLoadWritesPhysicalMemory := by
  unfold Obligations.OnlyAPageLoadWritesPhysicalMemory
  refine ⟨fun b pa v hw => ⟨?_, fun qa hq => ?_, rfl⟩, fun s t g off hw hs hm hne => ?_⟩
  · rw [memRead_memWrite hw, if_pos rfl]
  · rw [memRead_memWrite hw, if_neg (Ne.symm hq)]
  · obtain ⟨w, rest, hi, ht⟩ := step_changed_block hs hm fun hb => hne (by rw [hb])
    rw [ht] at hne ⊢
    obtain ⟨va, hd, hv⟩ := serve_changed_byte hne
    rw [hv] at hne ⊢
    exact ⟨va, w, rest, hi, hd, translate_changed_byte hw hne⟩

/-! ### The backing image (R56) -/

/-- A step takes the head of the host's moves, if there is one. -/
theorem step_inbox {s t : State} (h : step s = .next t) : t.inbox = s.inbox.tail := by
  rcases step_cases h with ⟨hi, rfl⟩ | ⟨b, rest, hi, rfl⟩ | ⟨rest, hi, rfl⟩ | ⟨image, rest, hi, -, rfl⟩ |
    ⟨w, rest, hi, -, rfl⟩ | ⟨w, rest, hi, -, rfl⟩ <;> rw [hi] <;> rfl

/-- What a step does to the backing image: nothing, or it is the reset that binds another one (R56,
log 10). -/
theorem step_backing {s t : State} (h : step s = .next t) :
    t.backing = s.backing ∨ (s.inbox.head? = some (.resetWithImage t.backing) ∧
      t.block = Block.reset (Policy.ofInput s.policyInput)) := by
  rcases step_cases h with ⟨-, rfl⟩ | ⟨b, rest, -, rfl⟩ | ⟨rest, -, rfl⟩ | ⟨image, rest, hi, -, rfl⟩ |
    ⟨w, rest, -, -, rfl⟩ | ⟨w, rest, -, -, rfl⟩
  · exact .inl rfl
  · exact .inl rfl
  · exact .inl rfl
  · exact .inr ⟨by rw [hi]; rfl, rfl⟩
  · exact .inl rfl
  · exact .inl rfl

/-- A run of one more step begins with a step that answers a next state. -/
theorem run_succ_eq_next {n : Nat} {s t : State} (h : run (n + 1) s = .next t) :
    ∃ u, step s = .next u ∧ run n u = .next t := by
  rw [run] at h
  cases hs : step s with
  | next u => exact ⟨u, rfl, by simpa only [hs] using h⟩
  | fault r => simp [hs] at h
  | refused r => simp [hs] at h

/-- The image after a run in which no move binds another one (R56), by induction on its steps. -/
theorem run_backing (n : Nat) {s t : State}
    (hm : ∀ m ∈ s.inbox.take n, ∀ image, m ≠ .resetWithImage image) (h : run n s = .next t) :
    t.backing = s.backing := by
  induction n generalizing s with
  | zero =>
    cases h
    rfl
  | succ n ih =>
    obtain ⟨u, hs, hr⟩ := run_succ_eq_next h
    have hu : u.backing = s.backing := by
      refine (step_backing hs).resolve_right fun ⟨hi, _⟩ => ?_
      exact hm _ (List.mem_of_mem_head? (by simpa [List.head?_take] using hi)) _ rfl
    rw [← hu]
    refine ih (fun m hmem => hm m ?_) hr
    rw [step_inbox hs] at hmem
    cases hi : s.inbox with
    | nil => simp [hi] at hmem
    | cons a l => exact List.mem_cons_of_mem _ (by simpa [hi] using hmem)

/-- Settles O15, from what one step does to the image. -/
theorem backingImageIsFixedDuringARun : Obligations.BackingImageIsFixedDuringARun := by
  unfold Obligations.BackingImageIsFixedDuringARun
  exact ⟨fun n _ _ => run_backing n, fun _ _ hs hne => (step_backing hs).resolve_left hne⟩

/-! ### The order of requests (R61) -/

/-- A step whose next move is a request word performs the request it decodes to (R61). -/
theorem step_decoded {s : State} {w : ReqWord} {rest : List HostMove} {i : Instr}
    (hr : s.wasReset = true) (hi : s.inbox = .request w :: rest) (hd : decode w = .instr i) :
    step s = exec i { s with inbox := rest } := by
  simp only [step, fetch, hi, hr, if_true, acceptWord, hd]

/-- A table word is a request exactly where its request word decodes to it (log 6). -/
theorem decodeTableWord_eq_some_iff (nbits w : Nat) (i : Instr) :
    decodeTableWord nbits w = some i ↔ decode (tableWord nbits w) = .instr i := by
  unfold decodeTableWord
  cases decode (tableWord nbits w) <;> simp

/-- Settles O12: a request word in front of the host's moves is decoded and performed. -/
theorem stepPerformsTheDecodedRequest : Obligations.StepPerformsTheDecodedRequest := by
  unfold Obligations.StepPerformsTheDecodedRequest
  refine ⟨fun s w rest i => step_decoded, fun s nbits w i hr hd => ?_⟩
  exact step_decoded (s := s.withFetchWord nbits w) hr rfl ((decodeTableWord_eq_some_iff ..).1 hd)

/-- Settles O14, by induction on the request words. -/
theorem runIsTheFoldOfItsRequests : Obligations.RunIsTheFoldOfItsRequests := by
  unfold Obligations.RunIsTheFoldOfItsRequests
  intro ws
  induction ws with
  | nil =>
    rintro s rest - rfl
    simp [run, serveAll]
  | cons w ws ih =>
    intro s rest hr hi
    have hstep := step_request (rest := ws.map .request ++ rest) hi hr
    refine (run_succ_of_next hstep _).trans ((ih _ rest ?_ ?_).trans ?_)
    · exact hr
    · rfl
    · simp [State.answer, serveAll]

end Sys2Proof.Proofs.Memory
end

/-! ## Encoding (30_encoding.md) -/

section
namespace Sys2Proof.Proofs.Encoding

open Config Machine

/-! ### The command map (R81, R86) -/

/-- Settles O1, by what the decoder answers for each value of the command field. -/
theorem decodeFollowsTheCommandMap : Obligations.DecodeFollowsTheCommandMap := by
  unfold Obligations.DecodeFollowsTheCommandMap
  refine fun w => ⟨fun h => ?_, fun h => ?_, fun h => ?_, fun h => ?_⟩
  · exact (decode_eq_instr_iff ..).2 ⟨h, rfl⟩
  · exact (decode_eq_instr_iff ..).2 ⟨h, rfl⟩
  · exact (decode_eq_reserved_iff ..).2 ⟨h, by decide, by decide⟩
  · exact (decode_eq_reserved_iff ..).2 ⟨h, by decide, by decide⟩

/-! ### The address decomposition (R84, R85) -/

/-- Under the mask of ten bits the two kinds of shift agree: the bits that they fill in differently are
masked off (R84). -/
theorem sshiftRight_and_eq_ushiftRight_and (x : BitVec 32) :
    x.sshiftRight 10 &&& 1023#32 = x >>> 10 &&& 1023#32 := by
  have hmask (i : Nat) : (1023#32).getLsbD i = decide (i < 10) := Nat.testBit_two_pow_sub_one 10 i
  ext i hi
  rw [BitVec.getElem_and, BitVec.getElem_and, ← BitVec.getLsbD_eq_getElem hi (x := 1023#32), hmask]
  by_cases h : i < 10
  · rw [BitVec.getElem_sshiftRight, BitVec.getElem_ushiftRight, dif_pos (by omega),
      BitVec.getLsbD_eq_getElem]
  · rw [decide_eq_false h, Bool.and_false, Bool.and_false]

/-- The offset as the source computes it (R84). -/
theorem offsetOf_eq_and (va : Va) : (offsetOf va).setWidth 32 = va &&& 1023#32 := by
  apply BitVec.eq_of_toNat_eq
  rw [BitVec.toNat_setWidth_of_le (by decide), offsetOf_toNat, BitVec.toNat_and]
  exact (Nat.and_two_pow_sub_one_eq_mod _ 10).symm

/-- The page number as the source computes it, with a logical shift (R84). -/
theorem vpnOf_eq_shift_and (va : Va) : (vpnOf va).setWidth 32 = va >>> 10 &&& 1023#32 := by
  apply BitVec.eq_of_toNat_eq
  rw [BitVec.toNat_setWidth_of_le (by decide), vpnOf_toNat, BitVec.toNat_and, BitVec.toNat_ushiftRight,
    Nat.shiftRight_eq_div_pow]
  exact (Nat.and_two_pow_sub_one_eq_mod _ 10).symm

/-- Settles O4: the two masks as remainders by 1024, and the two shifts agree under the mask. -/
theorem addressDecomposition : Obligations.AddressDecomposition := by
  unfold Obligations.AddressDecomposition
  refine ⟨fun va => ⟨offsetOf_eq_and va, vpnOf_eq_shift_and va, ?_⟩, by decide, by decide⟩
  rw [sshiftRight_and_eq_ushiftRight_and]
  exact vpnOf_eq_shift_and va

/-- A backing-store address as the source computes it (R85). -/
theorem backAddr_eq_shift_or (p : Vpn) (o : Offset) :
    (backAddr p o).setWidth 32 = (p.setWidth 32 <<< 10) ||| o.setWidth 32 := by
  apply BitVec.eq_of_toNat_eq
  have hp : p.toNat < 1024 := p.isLt
  have hshift : p.toNat <<< 10 < 2 ^ 32 := by
    rw [Nat.shiftLeft_eq]
    omega
  rw [BitVec.toNat_or, BitVec.toNat_shiftLeft, BitVec.toNat_setWidth_of_le (by decide),
    BitVec.toNat_setWidth_of_le (by decide), BitVec.toNat_setWidth_of_le (by decide), Nat.mod_eq_of_lt hshift]
  exact BitVec.toNat_append ..

/-- Settles O5: the page number above the offset is the used bits of the address. -/
theorem decompositionRoundTrip : Obligations.DecompositionRoundTrip := by
  unfold Obligations.DecompositionRoundTrip
  intro va
  rw [← backAddr_eq_shift_or, backAddr_vpnOf_offsetOf]
  apply BitVec.eq_of_toNat_eq
  rw [BitVec.toNat_setWidth_of_le (by decide), usedBits_toNat, BitVec.toNat_and]
  exact (Nat.and_two_pow_sub_one_eq_mod _ 20).symm

/-! ### Responses (R89) -/

/-- A step whose next move is no request word leaves the responses (R89). -/
theorem step_outbox_of_no_request {s t : State} (hn : ∀ w rest, s.inbox ≠ .request w :: rest)
    (h : step s = .next t) : t.outbox = s.outbox := by
  rcases step_cases h with ⟨-, rfl⟩ | ⟨b, rest, -, rfl⟩ | ⟨rest, -, rfl⟩ | ⟨image, rest, -, -, rfl⟩ |
    ⟨w, rest, -, -, rfl⟩ | ⟨w, rest, hi, -, -⟩
  · rfl
  · rfl
  · rfl
  · rfl
  · rfl
  · exact absurd hi (hn w rest)

/-- A sequence of requests has one response for each (R89). -/
theorem serveAll_length (inv : Bool) (image : Memory) (ws : List ReqWord) (b : Block) :
    (serveAll inv image ws b).2.length = ws.length := by
  induction ws generalizing b with
  | nil => rfl
  | cons w ws ih => exact congrArg (· + 1) (ih _)

/-- Settles O13: a request word is served with one response, no other move gives one, and a run of requests
is the fold of `serve` over them. -/
theorem everyRequestGetsOneResponse : Obligations.EveryRequestGetsOneResponse := by
  unfold Obligations.EveryRequestGetsOneResponse
  refine ⟨fun s w rest hr hi => ⟨_, _, step_request hi hr, rfl⟩,
    fun s t => step_outbox_of_no_request, fun ws s hr hi => ?_⟩
  have hrun := Proofs.Memory.runIsTheFoldOfItsRequests ws s [] hr (hi.trans (List.append_nil _).symm)
  exact ⟨_, _, hrun, rfl, rfl, serveAll_length ..⟩

end Sys2Proof.Proofs.Encoding
end

/-! ## The translation cache, and the invariants of every reachable state (41_tlb.md) -/

section
namespace Sys2Proof.Proofs.Tlb

open Config Machine

/-! ### What a request does to the block, said once -/

/-- What the pipeline makes of block `b` when a TRANSLATE of page `p` completes with frame `f`: one constructor
for each outcome (R171). -/
inductive Resolved (inv : Bool) (image : Memory) (b : Block) (p : Vpn) (f : FrameNo) : Block → Prop where
  /-- The lookup hit (R174). -/
  | tlbHit (hl : tlbLookup b p = some f) : Resolved inv image b p f (countHit (countRequest b))
  /-- The lookup missed, and the page is resident (R176, R178). -/
  | tableHit (hl : b.tlbMisses p) (ho : b.owns p f) :
    Resolved inv image b p f (tlbInsert (touchStamp (countRequest b) p (ordinalOf b)) p f)
  /-- A fault, with what frame selection left (R175, R178). -/
  | fault (b' : Block) (hf : b.faultsOn p)
    (hs : selectFrame inv (countFault (countRequest b)) = .ok (b', f)) :
    Resolved inv image b p f (afterFault image (ordinalOf b) p f b')

theorem resolved_of_resolve {inv : Bool} {image : Memory} {b c : Block} {p : Vpn} {f : FrameNo}
    (h : resolve inv image (ordinalOf b) p (countRequest b) = .ok (c, f)) :
    Resolved inv image b p f c := by
  rcases resolve_ok h with ⟨ho, rfl⟩ | ⟨ho, rfl⟩ | ⟨ho, b', hs, rfl⟩ <;> rw [outcomeOf_countRequest] at ho
  · exact .tlbHit ((outcomeOf_eq_tlbHit_iff ..).1 ho)
  · obtain ⟨hl, hp⟩ := (outcomeOf_eq_tableHit_iff ..).1 ho
    exact .tableHit ((tlbLookup_eq_none_iff ..).1 hl) hp
  · exact .fault b' ((Memory.faultsOn_iff_outcomeOf ..).2 ho) hs

/-- Everything a TRANSLATE can do to the block (R206): nothing, a block fault, or one of the three outcomes. -/
theorem translate_block_cases (inv : Bool) (image : Memory) (va : Va) (b : Block) :
    (translate inv image va b).1 = b ∨
    (∃ e, (e = .noFrameOwner → selectFrame inv (countFault (countRequest b)) = .error e) ∧
      (translate inv image va b).1 = (raiseBlockFault e b).1) ∨
    (b.ready ∧ ∃ f, Resolved inv image b (vpnOf va) f (translate inv image va b).1) := by
  rcases translate_cases inv image va b with
    ⟨-, ht⟩ | ⟨-, -, ht⟩ | ⟨-, e, hr, ht⟩ | ⟨hb, ⟨c, f⟩, hr, ht⟩ <;> rw [ht]
  · exact .inl rfl
  · exact .inr (.inl ⟨.counterOverflow, nofun, rfl⟩)
  · exact .inr (.inl ⟨e, fun _ => (resolve_error hr).2, rfl⟩)
  · exact .inr (.inr ⟨hb, f, resolved_of_resolve hr⟩)

/-- Everything a request can do to the block: nothing, a block fault, or one of the three outcomes of a
TRANSLATE. -/
theorem serve_block_cases (inv : Bool) (image : Memory) (w : ReqWord) (b : Block) :
    (serve inv image w b).1 = b ∨
    (∃ e, (e = .noFrameOwner → selectFrame inv (countFault (countRequest b)) = .error e) ∧
      (serve inv image w b).1 = (raiseBlockFault e b).1) ∨
    (b.ready ∧ ∃ p f, Resolved inv image b p f (serve inv image w b).1) := by
  unfold serve
  rcases decode w with (va | x) | c
  · rcases translate_block_cases inv image va b with h | h | ⟨hb, f, h⟩
    · exact .inl h
    · exact .inr (.inl h)
    · exact .inr (.inr ⟨hb, _, f, h⟩)
  · exact .inl rfl
  · exact .inr (.inl ⟨.reservedCommand, nofun, rfl⟩)

/-- What every request keeps of the block, any sequence of requests keeps. -/
theorem serveAll_keeps {inv : Bool} {image : Memory} {P : Block → Prop}
    (hserve : ∀ w b, P b → P (serve inv image w b).1) (ws : List ReqWord) {b : Block} (hb : P b) :
    P (serveAll inv image ws b).1 := by
  induction ws generalizing b with
  | nil => exact hb
  | cons w ws ih => exact ih (hserve w b hb)

/-! ### The TLB through a request (R104, R105, R109) -/

theorem setSlot_tlb_congr {b c : Block} (h : b.tlb = c.tlb) (i : TlbIndex) (e : TlbSlot) :
    (b.setSlot i e).tlb = (c.setSlot i e).tlb := by
  simp only [Block.setSlot_tlb, h]

/-- On this hardware frame selection leaves the TLB and HITS (R22, R141). -/
theorem selectFrame_false_tlb {b c : Block} {f : FrameNo} (h : selectFrame false b = .ok (c, f)) :
    c.tlb = b.tlb ∧ c.tlbPtr = b.tlbPtr ∧ c.hits = b.hits := by
  rcases selectFrame_ok h with ⟨-, -, rfl⟩ | ⟨-, v, -, rfl, -⟩ <;> exact ⟨rfl, rfl, rfl⟩

/-- Frame selection leaves TOTAL and ERR (R141). -/
theorem selectFrame_total_err {inv : Bool} {b c : Block} {f : FrameNo}
    (h : selectFrame inv b = .ok (c, f)) : c.total = b.total ∧ c.err = b.err := by
  rcases selectFrame_ok h with ⟨-, -, rfl⟩ | ⟨-, v, -, rfl, -⟩
  · exact ⟨rfl, rfl⟩
  · simp

section Resolved
variable {inv : Bool} {image : Memory} {b c : Block} {p : Vpn} {f : FrameNo}

/-- A TRANSLATE that completes counts itself (R172), and leaves ERR. -/
theorem Resolved.total_err (h : Resolved inv image b p f c) : c.total = ordinalOf b ∧ c.err = b.err := by
  cases h with
  | tlbHit hl => exact ⟨rfl, rfl⟩
  | tableHit hl ho => simp
  | fault b' hf hs => simpa using selectFrame_total_err hs

/-- Where some slot holds the page, the outcome is a TLB hit (R171). -/
theorem Resolved.eq_of_not_misses (h : Resolved inv image b p f c) (hm : ¬ b.tlbMisses p) :
    c = countHit (countRequest b) := by
  cases h with
  | tlbHit hl => rfl
  | tableHit hl ho => exact absurd hl hm
  | fault b' hf hs => exact absurd hf.1 hm

/-- Where no slot holds the page, the resolved mapping is the page table's and is inserted at the pointer
(R105, R178). -/
theorem Resolved.insert_of_misses (h : Resolved false image b p f c) (hm : b.tlbMisses p) :
    c.tlb = (b.setSlot b.tlbPtr ⟨true, p, f⟩).tlb ∧ c.tlbPtr = b.tlbPtr + 1 ∧ c.hits = b.hits ∧
      c.owns p f := by
  cases h with
  | tlbHit hl =>
    rw [(tlbLookup_eq_none_iff ..).2 hm] at hl
    cases hl
  | tableHit hl ho => exact ⟨rfl, rfl, rfl, ho⟩
  | fault b' hf hs =>
    obtain ⟨htlb, hptr, hhits⟩ := selectFrame_false_tlb hs
    have hins : (afterFault image (ordinalOf b) p f b').tlb =
        (b'.setSlot b'.tlbPtr ⟨true, p, f⟩).tlb := rfl
    rw [hins, hptr, afterFault_tlbPtr, afterFault_hits, hptr, hhits]
    exact ⟨setSlot_tlb_congr htlb .., rfl, rfl, (afterFault_owns ..).2 (.inl ⟨rfl, rfl⟩)⟩

end Resolved

/-- The response tells that a TRANSLATE completed (R177, R201). -/
theorem resolved_of_xlate {s t : State} {va va' : Va} {pa : PhysAddr} {d : Byte}
    (h : exec (.translate va) s = .next t) (hx : t.outbox = s.outbox ++ [.xlate va' pa d]) :
    s.block.ready ∧ ∃ f, Resolved false s.backing s.block (vpnOf va) f t.block := by
  cases h
  have hr : (translate INVALIDATE_ON_UNBIND s.backing va s.block).2 = .xlate va' pa d := by
    simpa using hx
  rw [State.answer_block]
  rcases translate_cases INVALIDATE_ON_UNBIND s.backing va s.block with
    ⟨-, ht⟩ | ⟨-, -, ht⟩ | ⟨-, e, -, ht⟩ | ⟨hb, ⟨c, f⟩, hres, ht⟩ <;> rw [ht] at hr ⊢
  · cases hr
  · cases hr
  · cases hr
  · exact ⟨hb, f, resolved_of_resolve hres⟩

/-- Settles O32, by the outcome: a TLB hit leaves the TLB, and the other two insert the mapping that the page
table then holds. -/
theorem tlbInsertExactlyOnAMiss : Obligations.TlbInsertExactlyOnAMiss := by
  unfold Obligations.TlbInsertExactlyOnAMiss
  intro s t va pa d h hx
  obtain ⟨-, f, hres⟩ := resolved_of_xlate h hx
  refine ⟨fun hhit => ?_, fun hmiss => ⟨f, ?_⟩⟩
  · rw [hres.eq_of_not_misses hhit]
    exact ⟨rfl, rfl⟩
  · obtain ⟨htlb, hptr, -, howns⟩ := hres.insert_of_misses hmiss
    exact ⟨htlb, hptr ▸ BitVec.toNat_add .., howns⟩

/-! ### Every request keeps the invariants -/

section Inv
variable {inv : Bool} {image : Memory} {b c : Block} {p : Vpn} {f : FrameNo}

/-- In a block that meets the invariants an eviction finds a victim: with FULL set every frame is bound
(R129, R205). -/
theorem selectFrame_ne_error_of_inv (h : b.Inv image) (e : BlockFault) :
    selectFrame inv (countFault (countRequest b)) ≠ .error e := by
  intro hs
  obtain ⟨-, hfull, hnone⟩ := (selectFrame_eq_error_iff ..).1 hs
  have hbound : b.bound b.allocPtr := (h.boundFrames _).2 (.inl hfull)
  rcases hnone with ⟨-, hn⟩ | ⟨-, hn⟩
  · exact hn hbound
  · obtain ⟨p, hp⟩ := hbound
    exact hn p ((Block.owns_iff ..).1 hp).1

/-- Each outcome keeps the invariants. -/
theorem Resolved.keeps_inv (hres : Resolved inv image b p f c) (h : b.Inv image) (hm : b.total ≠ Count.max) :
    c.Inv image := by
  cases hres with
  | tlbHit hl => exact h.hit hm
  | tableHit hl ho => exact h.tableHit hm hl ho
  | fault b' hf hs => exact h.fault hm hf hs

/-- A TRANSLATE keeps the invariants. -/
theorem inv_translate (h : b.Inv image) (va : Va) : (translate inv image va b).1.Inv image := by
  rcases translate_block_cases inv image va b with hc | ⟨e, he, hc⟩ | ⟨hb, f, hres⟩
  · rwa [hc]
  · rw [hc]
    exact h.raise fun hno => selectFrame_ne_error_of_inv h e (he hno)
  · exact hres.keeps_inv h hb.2

/-- A request keeps the invariants. -/
theorem inv_serve (h : b.Inv image) (w : ReqWord) : (serve inv image w b).1.Inv image := by
  unfold serve
  rcases decode w with (va | x) | c
  · exact inv_translate h va
  · exact h
  · exact h.raise nofun

/-- A hit is no insert (R105). -/
theorem inserts_countHit (h : b.Inv image) (hm : b.total ≠ Count.max) :
    (countHit (countRequest b)).inserts = b.inserts := by
  have hlt := lt_of_ne_max hm
  have hc := h.counters
  have ht : (countHit (countRequest b)).total.toNat = b.total.toNat + 1 := ordinalOf_toNat hm
  have hh : (countHit (countRequest b)).hits.toNat = b.hits.toNat + 1 := toNat_succ (b := b.hits) (by omega)
  rw [Block.inserts, Block.inserts, ht, hh]
  omega

/-- An insert at the pointer validates the next slot, while there is one that never held a mapping
(R110). -/
theorem tlbFilled_of_insert (hb : b.tlbFilled) (hp : b.tlbPtr.toNat = b.inserts % TLB_SIZE)
    (hc : c.tlb = (b.setSlot b.tlbPtr ⟨true, p, f⟩).tlb) (hn : c.inserts = b.inserts + 1) :
    c.tlbFilled := by
  intro i
  rw [Block.slot_congr hc, Block.setSlot_slot, hn]
  have hi : i.toNat < 16 := i.isLt
  have hp : b.tlbPtr.toNat = b.inserts % 16 := hp
  by_cases hpi : b.tlbPtr = i
  · rw [if_pos hpi]
    have hle : i.toNat = b.inserts % 16 := hpi ▸ hp
    exact iff_of_true rfl (by omega)
  · rw [if_neg hpi, hb i]
    have hne : b.tlbPtr.toNat ≠ i.toNat := fun h => hpi (BitVec.eq_of_toNat_eq h)
    omega

/-- On this hardware each outcome keeps the valid slots the first inserted ones (R110). -/
theorem Resolved.tlbFilled (hres : Resolved false image b p f c) (h : b.Inv image)
    (hm : b.total ≠ Count.max) (hb : b.tlbFilled) : c.tlbFilled := by
  by_cases hl : b.tlbMisses p
  · obtain ⟨htlb, -, hhits, -⟩ := hres.insert_of_misses hl
    refine tlbFilled_of_insert hb h.tlbPtr htlb ?_
    have hc := h.counters
    rw [Block.inserts, Block.inserts, hhits, hres.total_err.1, ordinalOf_toNat hm]
    omega
  · intro i
    rw [hres.eq_of_not_misses hl, inserts_countHit h hm]
    exact hb i

/-- On this hardware a request keeps the valid slots the first inserted ones (R110). -/
theorem tlbFilled_serve (h : b.Inv image) (hb : b.tlbFilled) (w : ReqWord) :
    (serve false image w b).1.tlbFilled := by
  rcases serve_block_cases false image w b with hc | ⟨e, -, hc⟩ | ⟨hr, p, f, hres⟩
  · rwa [hc]
  · rw [hc]
    exact hb
  · exact hres.tlbFilled h hr.2 hb

end Inv

/-- The state right after a reset meets the invariants (R230). -/
theorem inv_resetBlock {s : State} (h : Memory.wf VA_SPACE s.backing = true) : s.resetBlock.Inv :=
  ⟨h, fun _ => ⟨Block.inv_reset _ _, Block.tlbFilled_reset _⟩⟩

/-- Settles O48: a reset leads to the reset state, which meets the invariants, a request keeps them, and the
other moves leave the block. -/
theorem everyStepKeepsTheInvariants : Obligations.EveryStepKeepsTheInvariants := by
  unfold Obligations.EveryStepKeepsTheInvariants
  intro s t h hs
  obtain ⟨himage, hblock⟩ := h
  rcases step_cases hs with ⟨-, rfl⟩ | ⟨level, rest, -, rfl⟩ | ⟨rest, -, rfl⟩ | ⟨image, rest, -, hw, rfl⟩ |
    ⟨w, rest, -, -, rfl⟩ | ⟨w, rest, -, hr, rfl⟩
  · exact ⟨himage, hblock⟩
  · exact ⟨himage, hblock⟩
  · exact inv_resetBlock himage
  · exact inv_resetBlock hw
  · exact inv_resetBlock himage
  · obtain ⟨hinv, hfilled⟩ := hblock hr
    exact ⟨himage, fun _ => ⟨inv_serve hinv w, tlbFilled_serve hinv hfilled w⟩⟩

/-! ### Every state reached from reset -/

/-- A step after the first reset is followed by states after the first reset. -/
theorem step_wasReset {s t : State} (hr : s.wasReset = true) (h : step s = .next t) :
    t.wasReset = true := by
  rcases step_cases h with ⟨-, rfl⟩ | ⟨level, rest, -, rfl⟩ | ⟨rest, -, rfl⟩ | ⟨image, rest, -, -, rfl⟩ |
    ⟨w, rest, -, -, rfl⟩ | ⟨w, rest, -, -, rfl⟩
  · exact hr
  · exact hr
  · rfl
  · rfl
  · rfl
  · exact hr

/-- What every step keeps, every run keeps. -/
theorem run_keeps {P : State → Prop} (hstep : ∀ s t, P s → step s = .next t → P t) (n : Nat)
    {s t : State} (hs : P s) (h : run n s = .next t) : P t := by
  induction n generalizing s with
  | zero =>
    cases h
    exact hs
  | succ n ih =>
    obtain ⟨u, hu, hrun⟩ := Memory.run_succ_eq_next h
    exact ih (hstep s u hs hu) hrun

/-- What holds after a reset and every step keeps holds of every state reached from reset. -/
theorem reachable_induction {P : State → Prop}
    (hboot : ∀ input image moves, Memory.wf VA_SPACE image = true →
      P { State.boot input image with inbox := moves })
    (hstep : ∀ s t, P s → step s = .next t → P t) {s : State} (h : Reachable s) : P s := by
  obtain ⟨input, image, moves, n, hw, hrun⟩ := h
  exact run_keeps hstep n (hboot input image moves hw) hrun

theorem reachable_wasReset {s : State} (h : Reachable s) : s.wasReset = true :=
  reachable_induction (P := fun s => s.wasReset = true) (fun _ _ _ _ => rfl)
    (fun _ _ => step_wasReset) h

theorem reachable_inv {s : State} (h : Reachable s) : s.Inv :=
  reachable_induction (P := State.Inv)
    (fun _ _ _ hw => ⟨hw, fun _ => ⟨Block.inv_reset _ _, Block.tlbFilled_reset _⟩⟩)
    everyStepKeepsTheInvariants h

theorem reachable_block_inv {s : State} (h : Reachable s) : s.block.Inv s.backing :=
  ((reachable_inv h).2 (reachable_wasReset h)).1

/-- Settles O49: the invariants of every reachable state, and three of them written out. -/
theorem reachableStatesMeetTheInvariants : Obligations.ReachableStatesMeetTheInvariants := by
  unfold Obligations.ReachableStatesMeetTheInvariants
  intro s hs
  have hb := reachable_block_inv hs
  exact ⟨reachable_wasReset hs, reachable_inv hs, hb.tlbUnique,
    fun p q f hne ⟨hp, hq⟩ => hne (hb.ownerUnique p q f hp hq), fun p f off hp => hb.contents p f hp off⟩

/-! ### The last sixteen inserts (R109) -/

/-- The block after these inserts, the first one first. -/
def insertAll (l : List (Vpn × FrameNo)) (b : Block) : Block :=
  l.foldl (fun c e => tlbInsert c e.1 e.2) b

/-- A slot other than the next to be written is one place further behind after an insert. -/
theorem toNat_pred_sub_succ {ptr i : BitVec 4} (h : ptr ≠ i) :
    (ptr + 1 - 1 - i).toNat = (ptr - 1 - i).toNat + 1 := by
  bv_omega

/-- A slot `d` places behind the last written one holds the insert that came `d` before the last, where there
was one. -/
theorem insertAll_slot (l : List (Vpn × FrameNo)) (b : Block) (i : TlbIndex) {e : Vpn × FrameNo}
    (h : l.reverse[((insertAll l b).tlbPtr - 1 - i).toNat]? = some e) :
    (insertAll l b).slot i = ⟨true, e.1, e.2⟩ := by
  induction l using List.reverseRecOn with
  | nil => simp at h
  | append_singleton l x ih =>
    have hlast : insertAll (l ++ [x]) b = tlbInsert (insertAll l b) x.1 x.2 := by simp [insertAll]
    rw [hlast, tlbInsert_tlbPtr, List.reverse_append, List.reverse_singleton,
      List.singleton_append] at h
    rw [hlast, tlbInsert_slot]
    generalize (insertAll l b).tlbPtr = ptr at h ih
    by_cases hi : ptr = i
    · have hd : (ptr + 1 - 1 - i).toNat = 0 := by simp [hi]
      rw [hd] at h
      cases h
      rw [if_pos hi]
    · have hd : (ptr + 1 - 1 - i).toNat = (ptr - 1 - i).toNat + 1 :=
        toNat_pred_sub_succ hi
      rw [hd, List.getElem?_cons_succ] at h
      rw [if_neg hi]
      exact ih h

/-- What a lookup finds after 16 or more inserts was written by one of the last 16. -/
theorem mem_of_tlbLookup_insertAll {l : List (Vpn × FrameNo)} {b : Block} {p : Vpn} {f : FrameNo}
    (hl : 16 ≤ l.length) (h : tlbLookup (insertAll l b) p = some f) :
    (p, f) ∈ l.drop (l.length - 16) := by
  obtain ⟨i, hholds, hframe, -⟩ := (tlbLookup_eq_some_iff ..).1 h
  obtain ⟨-, hvpn⟩ := (TlbSlot.holds_iff ..).1 hholds
  have hd : ((insertAll l b).tlbPtr - 1 - i).toNat < 16 := BitVec.isLt _
  have he := List.getElem?_eq_getElem (l := l.reverse) (by rw [List.length_reverse]; exact hd.trans_le hl)
  have hslot := insertAll_slot l b i he
  rw [hslot] at hvpn hframe
  rw [← List.mem_reverse, ← List.take_reverse, ← hvpn, ← hframe, List.mem_iff_getElem?]
  exact ⟨_, (List.getElem?_take_of_lt hd).trans he⟩

/-- Settles O35: the invariant for the pointer, one insert's law, and the slots after many. -/
theorem tlbHoldsTheLastSixteenInserts : Obligations.TlbHoldsTheLastSixteenInserts := by
  unfold Obligations.TlbHoldsTheLastSixteenInserts
  refine ⟨fun s hs => (reachable_block_inv hs).tlbPtr, fun b p f i => ?_,
    fun l b p f => mem_of_tlbLookup_insertAll⟩
  simp only [tlbInsert_slot, eq_comm]

/-! ### Unbind, and the variant (R106, R111, R126) -/

/-- Settles O36: what an unbind writes, and its slots by `ptUnbind_slot`. -/
theorem unbindClearsOnlyValidBits : Obligations.UnbindClearsOnlyValidBits := by
  unfold Obligations.UnbindClearsOnlyValidBits
  refine fun b p => ⟨rfl, rfl, fun i => ?_⟩
  rw [ptUnbind_slot]
  simp only [Bool.true_and, TlbSlot.holds_iff]

section Coherent
variable {image : Memory} {b c : Block} {p : Vpn} {f : FrameNo}

/-- No slot is stale exactly where each valid slot's page owns the slot's frame (R108). -/
theorem coherent_iff (b : Block) :
    b.coherent ↔ ∀ i, (b.slot i).valid = true → b.owns (b.slot i).vpn (b.slot i).frame :=
  forall_congr' fun _ => b.not_stale_iff _

/-- In the variant each outcome keeps every valid slot current: the slots of an evicted page lose their valid
bit (R111). -/
theorem Resolved.coherent (hres : Resolved true image b p f c) (h : b.Inv image) (hb : b.coherent) :
    c.coherent := by
  rw [coherent_iff] at hb ⊢
  intro i
  cases hres with
  | tlbHit hl => exact hb i
  | tableHit hl ho =>
    rw [tlbInsert_slot]
    split
    · exact fun _ => ho
    · exact hb i
  | fault b' hf hs =>
    have hsel : Selected true (countFault (countRequest b)) b' f :=
      selectFrame_selected h.ownerUnique h.boundFrames hs
    rw [afterFault_slot, afterFault_owns]
    split
    · exact fun _ => .inl ⟨rfl, rfl⟩
    · intro hv
      have hold : b.owns (b.slot i).vpn (b.slot i).frame := hb i (hsel.slotValid i hv)
      have hne : (b.slot i).frame ≠ f := fun hff => hsel.slotCurrent rfl i hv (hff ▸ hold)
      have hpage : p ≠ (b.slot i).vpn := fun hp => by
        have hmapped := ((Block.owns_iff ..).1 hold).1
        rw [← hp, hf.2] at hmapped
        cases hmapped
      rw [hsel.slotVpn, hsel.slotFrame]
      exact .inr ⟨hpage, (hsel.keeps ..).2 ⟨hold, hne⟩⟩

/-- In the variant a request keeps every valid slot current (R111). -/
theorem coherent_serve (h : b.Inv image) (hb : b.coherent) (w : ReqWord) :
    (serve true image w b).1.coherent := by
  rcases serve_block_cases true image w b with hc | ⟨e, -, hc⟩ | ⟨-, p, f, hres⟩
  · rwa [hc]
  · rw [hc]
    exact hb
  · exact hres.coherent h hb

/-- In the variant no slot is stale, after any requests since a reset (R111). -/
theorem coherent_serveAll_reset (image : Memory) (k : Policy) (ws : List ReqWord) :
    (serveAll true image ws (Block.reset k)).1.coherent := by
  have hreset : (Block.reset k).coherent := by simp [Block.coherent, Block.stale]
  exact (serveAll_keeps (P := fun b => b.Inv image ∧ b.coherent)
    (fun w b ⟨h, hb⟩ => ⟨inv_serve h w, coherent_serve h hb w⟩) ws ⟨Block.inv_reset image k, hreset⟩).2

end Coherent

/-- Settles O42: the invariant for the bound frames, and coherence of the variant. -/
theorem variantKeepsTheTlbCoherent : Obligations.VariantKeepsTheTlbCoherent := by
  unfold Obligations.VariantKeepsTheTlbCoherent
  exact ⟨fun s hs => (reachable_block_inv hs).tlbBound,
    fun image k ws => (coherent_iff _).1 (coherent_serveAll_reset image k ws)⟩

/-! ### Stale hits (R108) -/

/-- Frame selection makes no page resident (R141). -/
theorem selectFrame_resident {inv : Bool} {b c : Block} {f : FrameNo} {p : Vpn}
    (h : selectFrame inv b = .ok (c, f)) (hp : c.resident p) : b.resident p := by
  rcases selectFrame_ok h with ⟨-, -, rfl⟩ | ⟨-, v, -, rfl, -⟩
  · exact hp
  · rw [Block.resident, ptUnbind_ptEntry] at hp
    split at hp
    · cases hp
    · exact hp

/-- A page that a TRANSLATE makes resident is its own, and the TLB missed it (R175). -/
theorem Resolved.resident {inv : Bool} {image : Memory} {b c : Block} {p q : Vpn} {f : FrameNo}
    (hres : Resolved inv image b p f c) (hq : c.resident q) : b.resident q ∨ b.tlbMisses q := by
  cases hres with
  | tlbHit hl => exact .inl hq
  | tableHit hl ho => exact .inl hq
  | fault b' hf hs =>
    rcases (afterFault_owns ..).1 ((Block.owns_iff ..).2 ⟨hq, rfl⟩) with ⟨hpq, -⟩ | ⟨-, ho⟩
    · exact .inr (hpq ▸ hf.1)
    · exact .inl (selectFrame_resident (b := countFault (countRequest b)) hs ((Block.owns_iff ..).1 ho).1)

/-- A request makes no page resident that a slot holds (R108). -/
theorem serve_resident {inv : Bool} {image : Memory} {w : ReqWord} {b : Block} {p : Vpn} {i : TlbIndex}
    (hi : (b.slot i).holds p = true) (hp : (serve inv image w b).1.resident p) : b.resident p := by
  rcases serve_block_cases inv image w b with hc | ⟨e, -, hc⟩ | ⟨-, q, f, hres⟩
  · rwa [hc] at hp
  · rw [hc] at hp
    exact hp
  · refine (hres.resident hp).resolve_right fun hmiss => ?_
    rw [hmiss i] at hi
    cases hi

/-- No page is resident right after a reset (R230). -/
theorem not_resident_reset (k : Policy) (p : Vpn) : ¬ (Block.reset k).resident p := by
  simp [Block.resident]

/-- A step makes no page resident that a slot holds (R108). -/
theorem step_not_resident {s t : State} {i : TlbIndex} {p : Vpn} (hi : (s.block.slot i).holds p = true)
    (hp : ¬ s.block.resident p) (h : step s = .next t) : ¬ t.block.resident p := by
  rcases step_cases h with ⟨-, rfl⟩ | ⟨level, rest, -, rfl⟩ | ⟨rest, -, rfl⟩ | ⟨image, rest, -, -, rfl⟩ |
    ⟨w, rest, -, -, rfl⟩ | ⟨w, rest, -, -, rfl⟩
  · exact hp
  · exact hp
  · exact not_resident_reset _ p
  · exact not_resident_reset _ p
  · exact not_resident_reset _ p
  · exact fun hq => hp (serve_resident hi hq)

/-- Where the valid slots hold different pages, a lookup finds the slot that holds the page (R107). -/
theorem tlbLookup_of_slot {image : Memory} {b : Block} (h : b.Inv image) {i : TlbIndex} {p : Vpn}
    {f : FrameNo} (hi : b.slot i = ⟨true, p, f⟩) : tlbLookup b p = some f := by
  refine (tlbLookup_eq_some_iff ..).2 ⟨i, ?_, by rw [hi], fun j hj => ?_⟩
  · exact (TlbSlot.holds_iff ..).2 (by simp [hi])
  · rw [Bool.eq_false_iff, ne_eq, TlbSlot.holds_iff]
    rintro ⟨hv, hp⟩
    have hji : j = i := h.tlbUnique j i hv (by rw [hi]) (by rw [hi, hp])
    exact absurd hj (hji ▸ Nat.lt_irrefl _)

/-- A TLB hit, stale or not (R174, R177). -/
theorem translate_of_tlbLookup {inv : Bool} {image : Memory} {va : Va} {b : Block} {f : FrameNo}
    (hb : b.ready) (hl : tlbLookup b (vpnOf va) = some f) :
    translate inv image va b = (countHit (countRequest b),
      .xlate va (physAddr f (offsetOf va)) (memRead b (physAddr f (offsetOf va)))) := by
  have ho : outcomeOf (countRequest b) (vpnOf va) = .tlbHit f :=
    (outcomeOf_eq_tlbHit_iff ..).2 hl
  rw [translate_ready hb, resolve, ho]
  rfl

/-- The outcome that unmaps a resident page is a fault on another page that takes the page's frame; on this
hardware a slot that is not the next to be written stays (R108, R126). -/
theorem Resolved.evicted {image : Memory} {b c : Block} {p q : Vpn} {f g : FrameNo}
    (hres : Resolved false image b q g c) (h : b.Inv image) (hp : b.owns p f) (hc : ¬ c.resident p) :
    c.owns q f ∧ ∀ i, i ≠ b.tlbPtr → c.slot i = b.slot i := by
  have hpr : b.resident p := ((Block.owns_iff ..).1 hp).1
  cases hres with
  | tlbHit hl => exact absurd hpr hc
  | tableHit hl ho => exact absurd hpr hc
  | fault b' hf hs =>
    have hsel : Selected false (countFault (countRequest b)) b' g :=
      selectFrame_selected h.ownerUnique h.boundFrames hs
    have hqp : q ≠ p := fun hqp => by
      rw [Block.resident, ← hqp, hf.2] at hpr
      cases hpr
    have hfg : f = g := by
      by_contra hne
      have hkept : b'.owns p f := (hsel.keeps p f).2 ⟨hp, hne⟩
      exact hc ((Block.owns_iff ..).1 ((afterFault_owns ..).2 (.inr ⟨hqp, hkept⟩))).1
    refine ⟨(afterFault_owns ..).2 (.inl ⟨rfl, hfg.symm⟩), fun i hi => ?_⟩
    rw [afterFault_slot, if_neg fun hptr => hi (hptr.symm.trans hsel.tlbPtr)]
    exact hsel.slotKept rfl i

/-- A TRANSLATE that unmaps a page has completed: an error leaves the page table. -/
theorem resolved_of_evicted {inv : Bool} {image : Memory} {va : Va} {b : Block} {p : Vpn}
    (hp : b.resident p) (hc : ¬ (translate inv image va b).1.resident p) :
    b.ready ∧ ∃ f, Resolved inv image b (vpnOf va) f (translate inv image va b).1 := by
  rcases translate_block_cases inv image va b with h | ⟨e, -, h⟩ | h
  · rw [h] at hc
    exact absurd hp hc
  · rw [h] at hc
    exact absurd hp hc
  · exact h

/-- A TRANSLATE that evicts a page leaves the page's slot, gives its frame to another page, and leaves the
block ready for the next TRANSLATE (R108). -/
theorem translate_evicts {image : Memory} {va : Va} {b : Block} {p : Vpn} {f : FrameNo} {i : TlbIndex}
    (h : b.Inv image) (hn : b.total.toNat + 2 < 2 ^ 32) (hslot : b.slot i = ⟨true, p, f⟩)
    (howns : b.owns p f) (hi : i ≠ b.tlbPtr) (hgone : ¬ (translate false image va b).1.resident p) :
    (translate false image va b).1.ready ∧ (translate false image va b).1.slot i = ⟨true, p, f⟩ ∧
      (translate false image va b).1.owns (vpnOf va) f := by
  obtain ⟨⟨herr, hmax⟩, g, hres⟩ := resolved_of_evicted ((Block.owns_iff ..).1 howns).1 hgone
  obtain ⟨htot, herr'⟩ := hres.total_err
  obtain ⟨hnew, hkept⟩ := hres.evicted h howns hgone
  refine ⟨⟨herr'.trans herr, fun hlast => ?_⟩, (hkept i hi).trans hslot, hnew⟩
  have hord := ordinalOf_toNat hmax
  rw [← htot, hlast] at hord
  have hord : 2 ^ 32 - 1 = b.total.toNat + 1 := hord
  omega

/-- Settles O43: the eviction, by the outcome that can unmap a page; the stale hit, by the one slot that holds
the page and the contents of the new owner's frame. -/
theorem evictionLeavesAStaleHit : Obligations.EvictionLeavesAStaleHit := by
  unfold Obligations.EvictionLeavesAStaleHit
  refine ⟨?_, fun s t i p => step_not_resident, coherent_serveAll_reset⟩
  intro s t va va' i f hs hr _ hn hslot howns hi hexec hgone
  obtain ⟨hinv, -⟩ := hs.2 hr
  cases hexec
  obtain ⟨hready, hkept, hnew⟩ := translate_evicts hinv hn hslot howns hi hgone
  have hinv' := inv_translate (inv := false) hinv va'
  have hstale := translate_of_tlbLookup (inv := false) (image := s.backing) hready
    (tlbLookup_of_slot hinv' hkept)
  rw [hinv'.contents _ f hnew] at hstale
  refine ⟨?_, hnew, _, rfl, ?_⟩
  · rw [Block.stale, State.answer_block, show INVALIDATE_ON_UNBIND = false from rfl, hkept]
    exact ⟨rfl, .inl (Bool.eq_false_iff.2 hgone)⟩
  · simp only [State.answer_block, State.answer_outbox, State.answer_backing, INVALIDATE_ON_UNBIND, hstale]
    exact ⟨trivial, rfl, rfl, hgone⟩

end Sys2Proof.Proofs.Tlb
end

/-! ## The bound frames (42_page_table.md) -/

section
namespace Sys2Proof.Proofs.PageTable

open Config Machine Tlb

theorem allVpns_nodup : allVpns.Nodup :=
  allVpns_ascending.imp fun hlt heq => hlt.ne (congrArg BitVec.toNat heq)

/-- The numbers of the frames that resident pages map to, in the order of the pages: the resident pages seen
as frames, which `residentCount_eq` counts. -/
def residentFrames (b : Block) : List Nat :=
  (allVpns.filter fun p => (b.ptEntry p).valid).map fun p => (b.ptEntry p).frame.toNat

theorem length_residentFrames (b : Block) : (residentFrames b).length = b.residentCount := by
  rw [residentFrames, List.length_map, Block.residentCount, List.countP_eq_length_filter]

theorem mem_residentFrames (b : Block) (k : Nat) :
    k ∈ residentFrames b ↔ ∃ f, b.bound f ∧ f.toNat = k := by
  simp only [residentFrames, List.mem_map, List.mem_filter, mem_allVpns, true_and]
  constructor
  · rintro ⟨p, hp, hk⟩
    exact ⟨_, ⟨p, (Block.owns_iff ..).2 ⟨hp, rfl⟩⟩, hk⟩
  · rintro ⟨f, ⟨p, hp⟩, hk⟩
    obtain ⟨hv, hf⟩ := (Block.owns_iff ..).1 hp
    exact ⟨p, hv, by rw [hf, hk]⟩

section OwnerUnique
variable {b : Block} (hu : ∀ p q f, b.owns p f → b.owns q f → p = q)
include hu

/-- Where a frame has at most one owner, no frame is listed twice (R127). -/
theorem residentFrames_nodup : (residentFrames b).Nodup := by
  refine List.Nodup.map_on (fun p hp q hq hpq => ?_) (allVpns_nodup.filter _)
  exact hu p q _ ((Block.owns_iff ..).2 ⟨(List.mem_filter.1 hp).2, rfl⟩)
    ((Block.owns_iff ..).2 ⟨(List.mem_filter.1 hq).2, (BitVec.eq_of_toNat_eq hpq).symm⟩)

/-- Pages of different frames that fill exactly the frames below `n` are `n` pages: their frames are the
numbers below `n` in some order. -/
theorem residentCount_eq {n : Nat} (hn : n ≤ N_FRAMES) (hb : ∀ f, b.bound f ↔ f.toNat < n) :
    b.residentCount = n := by
  have hmem : ∀ k, k ∈ residentFrames b ↔ k ∈ List.range n := by
    intro k
    simp only [mem_residentFrames, hb, List.mem_range]
    constructor
    · rintro ⟨f, hf, rfl⟩
      exact hf
    · intro hk
      have hfk : (BitVec.ofNat FRAME_BITS k).toNat = k := Nat.mod_eq_of_lt (hk.trans_le hn)
      exact ⟨_, by rwa [hfk], hfk⟩
  have hperm : (residentFrames b).Perm (List.range n) :=
    (List.perm_ext_iff_of_nodup (residentFrames_nodup hu) List.nodup_range).2 hmem
  rw [← length_residentFrames, hperm.length_eq, List.length_range]

/-- A bound frame has exactly one owner (R127). -/
theorem existsUnique_owner {f : FrameNo} (hf : b.bound f) : ∃! p, b.owns p f :=
  existsUnique_of_exists_of_unique hf fun p q => hu p q f

end OwnerUnique

/-- Settles O37: the invariant says which frames are bound, for either value of FULL, and `residentCount_eq`
counts their owners. -/
theorem residentPagesFillTheFrames : Obligations.ResidentPagesFillTheFrames := by
  unfold Obligations.ResidentPagesFillTheFrames
  intro s hs
  have h := reachable_block_inv hs
  have hb := h.boundFrames
  cases hfull : s.block.full
  case false =>
    have hb : ∀ f, s.block.bound f ↔ f.toNat < s.block.allocPtr.toNat := by simpa [hfull] using hb
    exact .inl ⟨rfl, residentCount_eq h.ownerUnique s.block.allocPtr.isLt.le hb,
      fun f hf => existsUnique_owner h.ownerUnique ((hb f).2 hf),
      fun f hf hbound => absurd ((hb f).1 hbound) hf.not_gt⟩
  case true =>
    have hb : ∀ f, s.block.bound f := by simpa [hfull] using hb
    exact .inr ⟨rfl, residentCount_eq h.ownerUnique le_rfl fun f => iff_of_true (hb f) f.isLt,
      fun f => existsUnique_owner h.ownerUnique (hb f)⟩

end Sys2Proof.Proofs.PageTable
end

/-! ## The frame allocator (43_frame_allocator.md) -/

section
namespace Sys2Proof.Proofs.FrameAllocator

open Config Machine Tlb

/-! ### Frame selection, case by case (R141, R145, R146) -/

/-- With frames free, selection takes the one at the cursor (R141). -/
theorem selectFrame_of_free (inv : Bool) {b : Block} (hfree : b.full = false) :
    selectFrame inv b = .ok (advanceCursor b, b.allocPtr) := by
  simp [selectFrame, hfree]

/-- With the frames exhausted under FIFO, selection unbinds the owner of the frame at the cursor (R145). -/
theorem selectFrame_of_fifo (inv : Bool) {b : Block} {q : Vpn} (hfull : b.full = true)
    (hpol : b.policy = .fifo) (hq : ptReverseLookup b b.allocPtr = some q) :
    selectFrame inv b = .ok (ptUnbind inv (advanceCursor b) q, b.allocPtr) := by
  rw [selectFrame, if_pos hfull, hpol]
  exact (fifoEvict_eq_ok_iff ..).2 ⟨q, hq, rfl, rfl⟩

/-- With the frames exhausted under LRU, selection unbinds the victim of the scan (R146). -/
theorem selectFrame_of_lru (inv : Bool) {b : Block} {v : Vpn} (hfull : b.full = true)
    (hpol : b.policy = .lru) (hv : lruVictim b = some v) :
    selectFrame inv b = .ok (ptUnbind inv (advanceCursor b) v, (b.ptEntry v).frame) := by
  rw [selectFrame, if_pos hfull, hpol]
  exact (lruEvict_eq_ok_iff ..).2 ⟨v, hv, rfl, rfl⟩

/-- The scan finds every page that comes first among the resident ones: by timestamp, and the lowest of
several (R146). -/
theorem lruVictim_eq_some {b : Block} {v : Vpn} (hv : b.resident v)
    (hmin : ∀ p, b.resident p → p ≠ v → (b.stamp v).toNat < (b.stamp p).toNat ∨
      (b.stamp v = b.stamp p ∧ v.toNat < p.toNat)) : lruVictim b = some v := by
  rcases lruVictim_spec b with ⟨-, hnone⟩ | ⟨w, hw, hwr, hwmin⟩
  · exact absurd hv (hnone v)
  · by_cases hne : w = v
    · rw [hw, hne]
    · have h1 := hmin w hwr hne
      have h2 := hwmin v hv (Ne.symm hne)
      simp only [BitVec.lt_def, ← BitVec.toNat_inj] at h1 h2
      omega

/-! ### A page fault that completes (R175, R177, R183) -/

/-- The page table with the victim unbound, where there is one (R126). -/
def unboundPt (b : Block) : Option Vpn → Vector PtEntry N_PAGES
  | none => b.pt
  | some v => (ptUnbind false b v).pt

/-- What frame selection leaves of the block on this hardware, for a fault that evicts this victim:
`exec_pagedIn` takes it as the result of `selectFrame`. -/
def allocated (b : Block) (victim : Option Vpn) : Block :=
  { advanceCursor b with pt := unboundPt b victim }

theorem allocated_ptEntry (b : Block) (victim : Option Vpn) (p : Vpn) :
    (allocated b victim).ptEntry p =
      if some p = victim then ⟨false, (b.ptEntry p).frame⟩ else b.ptEntry p := by
  cases victim with
  | none => rfl
  | some v =>
    refine (ptUnbind_ptEntry false b v p).trans ?_
    by_cases hv : v = p
    · subst hv
      simp
    · simp [hv, Ne.symm hv]

theorem allocated_full (b : Block) (victim : Option Vpn) :
    (allocated b victim).full = (b.full || b.allocPtr == 255) := by
  show (if b.allocPtr = 255 then true else b.full) = (b.full || decide (b.allocPtr = 255))
  by_cases h : b.allocPtr = 255
  · rw [if_pos h, decide_eq_true h, Bool.or_true]
  · rw [if_neg h, decide_eq_false h, Bool.or_false]

theorem afterFault_ptEntry (image : Memory) (ord : Count) (p q : Vpn) (f : FrameNo) (c : Block) :
    (afterFault image ord p f c).ptEntry q = if p = q then ⟨true, f⟩ else c.ptEntry q :=
  ptBind_ptEntry c p q f

/-- The pipeline of a fault whose frame selection succeeds (R175). -/
theorem resolve_of_fault {inv : Bool} {image : Memory} {ord : Count} {p : Vpn} {b c : Block} {f : FrameNo}
    (hf : b.faultsOn p) (hs : selectFrame inv (countFault b) = .ok (c, f)) :
    resolve inv image ord p b = .ok (afterFault image ord p f c, f) := by
  simp only [resolve, (Memory.faultsOn_iff_outcomeOf ..).1 hf, pageIn, hs]
  rfl

/-- A fault whose frame selection succeeds completes, with the page's byte (R175, R177). -/
theorem translate_of_fault {inv : Bool} {image : Memory} {va : Va} {b c : Block} {f : FrameNo}
    (hb : b.ready) (hw : Memory.wf PM_SIZE b.pm = true) (hf : b.faultsOn (vpnOf va))
    (hs : selectFrame inv (countFault (countRequest b)) = .ok (c, f)) :
    translate inv image va b = (afterFault image (ordinalOf b) (vpnOf va) f c,
      .xlate va (physAddr f (offsetOf va)) (backingRead image (backAddr (vpnOf va) (offsetOf va)))) := by
  have hwc : Memory.wf PM_SIZE c.pm = true := by
    rw [Memory.selectFrame_pm hs]
    exact hw
  have hres := resolve_of_fault (image := image) (ord := ordinalOf b) (b := countRequest b) hf hs
  rw [translate_ready hb, hres]
  simp only [finishXlate, afterFault_memRead hwc, if_true]

/-- A fault for which frame selection answers `f`, with this victim unbound, has the effects that `PagedIn`
lists. -/
theorem exec_pagedIn {s : State} {va : Va} {f : FrameNo} {victim : Option Vpn} (hb : s.block.ready)
    (hw : Memory.wf PM_SIZE s.block.pm = true) (hf : s.block.faultsOn (vpnOf va))
    (hs : selectFrame false (countFault (countRequest s.block)) =
      .ok (allocated (countFault (countRequest s.block)) victim, f)) :
    ∃ t, exec (.translate va) s = .next t ∧ PagedIn s t va f victim := by
  have hwc : Memory.wf PM_SIZE (allocated (countFault (countRequest s.block)) victim).pm = true := hw
  have ht := translate_of_fault (image := s.backing) hb hw hf hs
  refine ⟨_, rfl, ?_⟩
  rw [show INVALIDATE_ON_UNBIND = false from rfl, ht]
  exact {
    policy := afterFault_policy ..
    slots := fun i => by simp only [State.answer_block, afterFault_slot, eq_comm (a := i)]; rfl
    tlbPtr := afterFault_tlbPtr ..
    entries := fun p => by
      rw [State.answer_block, afterFault_ptEntry, allocated_ptEntry]
      simp only [eq_comm (a := p)]
      rfl
    stamps := fun p => by
      simp only [State.answer_block, afterFault_stamp, eq_comm (a := p)]
      rfl
    allocPtr := afterFault_allocPtr ..
    full := (afterFault_full ..).trans (allocated_full ..)
    loaded := fun off => by rw [State.answer_block, afterFault_memRead hwc, if_pos rfl]
    otherFrames := fun g off hg => by
      rw [State.answer_block, afterFault_memRead hwc, if_neg hg.symm]
      rfl
    pmWf := afterFault_wf hwc
    total := afterFault_total ..
    faults := afterFault_faults ..
    hits := afterFault_hits ..
    err := afterFault_err ..
    outbox := rfl
    others := rfl }

/-- Settles O25: with frames free, selection leaves every page bound. -/
theorem faultTakesTheNextFreeFrame : Obligations.FaultTakesTheNextFreeFrame := by
  unfold Obligations.FaultTakesTheNextFreeFrame
  exact fun s va hb hw hf hfree => exec_pagedIn (victim := none) hb hw hf (selectFrame_of_free false hfree)

/-- Settles O26: the reverse lookup finds the lowest owner of the frame at the cursor. -/
theorem fifoFaultEvictsTheOwnerAtTheCursor : Obligations.FifoFaultEvictsTheOwnerAtTheCursor := by
  unfold Obligations.FifoFaultEvictsTheOwnerAtTheCursor
  intro s va q hb hw hf hfull hpol hq hlow
  exact exec_pagedIn (victim := some q) hb hw hf <|
    selectFrame_of_fifo false hfull hpol ((ptReverseLookup_eq_some_iff ..).2 ⟨hq, hlow⟩)

/-- Settles O27: the scan finds the page, by `lruVictim_eq_some`. -/
theorem lruFaultEvictsTheSmallestTimestamp : Obligations.LruFaultEvictsTheSmallestTimestamp := by
  unfold Obligations.LruFaultEvictsTheSmallestTimestamp
  intro s va v f hb hw hf hfull hpol hv hmin
  obtain ⟨hres, rfl⟩ := (Block.owns_iff ..).1 hv
  exact exec_pagedIn (victim := some v) hb hw hf <|
    selectFrame_of_lru false hfull hpol (lruVictim_eq_some hres hmin)

/-! ### Timestamps (R148, R176) -/

/-- Frame selection leaves the timestamps and the policy (R141). -/
theorem selectFrame_ts_policy {inv : Bool} {b c : Block} {f : FrameNo}
    (h : selectFrame inv b = .ok (c, f)) : c.ts = b.ts ∧ c.policy = b.policy := by
  rcases selectFrame_ok h with ⟨-, -, rfl⟩ | ⟨-, v, -, rfl, -⟩
  · exact ⟨rfl, rfl⟩
  · simp

/-- The timestamp update reads the policy and the timestamps alone. -/
theorem touchStamp_ts_congr {b c : Block} (hts : c.ts = b.ts) (hpol : c.policy = b.policy) (p : Vpn)
    (ord : Count) : (touchStamp c p ord).ts = (touchStamp b p ord).ts := by
  simp only [touchStamp, Block.setStamp_ts, hts, hpol]

/-- Where no slot holds the page, the timestamps change by the update alone (R176). -/
theorem ts_of_misses {inv : Bool} {image : Memory} {b c : Block} {p : Vpn} {f : FrameNo}
    (hres : Resolved inv image b p f c) (hm : b.tlbMisses p) :
    c.ts = (touchStamp b p (ordinalOf b)).ts := by
  cases hres with
  | tlbHit hl =>
    rw [(tlbLookup_eq_none_iff ..).2 hm] at hl
    cases hl
  | tableHit hl ho => rfl
  | fault b' hf hs =>
    obtain ⟨hts, hpol⟩ := selectFrame_ts_policy hs
    exact touchStamp_ts_congr hts hpol p _

/-- Settles O31, by the outcome: a TLB hit leaves the timestamps, and a miss updates them by
`touchStamp`. -/
theorem timestampsFollowTableLevelAccesses : Obligations.TimestampsFollowTableLevelAccesses := by
  unfold Obligations.TimestampsFollowTableLevelAccesses
  intro s t va pa d h hx
  obtain ⟨-, f, hres⟩ := resolved_of_xlate h hx
  by_cases hm : s.block.tlbMisses (vpnOf va)
  · have hts := ts_of_misses hres hm
    refine ⟨fun hor => ?_, fun hlru _ => ?_⟩
    · rw [hts, touchStamp_fifo (hor.resolve_right (not_not_intro hm))]
    · have hstamp : ∀ p, t.block.stamp p =
          if s.block.policy = .lru ∧ vpnOf va = p then ordinalOf s.block else s.block.stamp p :=
        fun p => (Block.stamp_congr hts p).trans (touchStamp_stamp ..)
      refine ⟨?_, fun p hp => ?_⟩
      · rw [hstamp, if_pos ⟨hlru, rfl⟩, hres.total_err.1]
      · rw [hstamp, if_neg fun h => hp h.2.symm]
  · refine ⟨fun _ => ?_, fun _ hmiss => absurd hmiss hm⟩
    rw [hres.eq_of_not_misses hm]
    rfl

/-! ### FIFO evicts the frames in turn (R128, R150) -/

/-- A page fault under FIFO in a block that meets the invariants pages into the frame at the cursor, and its
victim is that frame's owner, which there is exactly when the frames are exhausted (R128, R145). -/
theorem fifo_fault {s : State} {va : Va} (h : s.block.Inv s.backing) (hb : s.block.ready)
    (hpol : s.block.policy = .fifo) (hf : s.block.faultsOn (vpnOf va)) :
    ∃ t victim, exec (.translate va) s = .next t ∧ PagedIn s t va s.block.allocPtr victim ∧
      ∀ q, some q = victim ↔ s.block.owns q s.block.allocPtr := by
  cases hfull : s.block.full with
  | false =>
    obtain ⟨t, ht, hpaged⟩ := faultTakesTheNextFreeFrame s va hb h.pmWf hf hfull
    have hunbound : ¬ s.block.bound s.block.allocPtr := by simp [h.boundFrames, hfull]
    exact ⟨t, none, ht, hpaged, fun q => iff_of_false nofun fun hq => hunbound ⟨q, hq⟩⟩
  | true =>
    obtain ⟨v, hv⟩ := (h.boundFrames s.block.allocPtr).2 (.inl hfull)
    have hlow : ∀ p, p.toNat < v.toNat → ¬ s.block.owns p s.block.allocPtr := fun p hlt hp =>
      hlt.ne (congrArg BitVec.toNat (h.ownerUnique p v _ hp hv))
    obtain ⟨t, ht, hpaged⟩ :=
      fifoFaultEvictsTheOwnerAtTheCursor s va v hb h.pmWf hf hfull hpol hv hlow
    refine ⟨t, some v, ht, hpaged, fun q => ⟨fun hq => ?_, fun hq => ?_⟩⟩
    · cases hq
      exact hv
    · rw [h.ownerUnique q v _ hq hv]

section PagedIn
variable {s t : State} {va : Va} {f : FrameNo} {victim : Option Vpn}

theorem owns_of_pagedIn (h : PagedIn s t va f victim) : t.block.owns (vpnOf va) f :=
  (h.entries _).trans (if_pos rfl)

/-- A page that a fault on another page does not evict keeps its entry. -/
theorem ptEntry_of_pagedIn (h : PagedIn s t va f victim) {p : Vpn} (hp : p ≠ vpnOf va)
    (hv : some p ≠ victim) : t.block.ptEntry p = s.block.ptEntry p := by
  rw [h.entries, if_neg hp, if_neg hv]

theorem not_resident_victim (h : PagedIn s t va f victim) {p : Vpn} (hp : p ≠ vpnOf va)
    (hv : some p = victim) : ¬ t.block.resident p := by
  rw [Block.resident, h.entries, if_neg hp, if_pos hv]
  exact Bool.false_ne_true

/-- A fault makes no page resident but its own. -/
theorem resident_of_pagedIn (h : PagedIn s t va f victim) {p : Vpn} (hp : p ≠ vpnOf va)
    (hr : t.block.resident p) : s.block.resident p := by
  by_cases hv : some p = victim
  · exact absurd hr (not_resident_victim h hp hv)
  · rwa [Block.resident, ptEntry_of_pagedIn h hp hv] at hr

/-- A fault that completes counts in FAULTS and TOTAL, which do not wrap (R181, R204). -/
theorem toNat_counts_of_pagedIn (h : PagedIn s t va f victim) (hinv : s.block.Inv s.backing)
    (hb : s.block.ready) :
    t.block.faults.toNat = s.block.faults.toNat + 1 ∧ t.block.total.toNat = s.block.total.toNat + 1 := by
  have hlt := lt_of_ne_max hb.2
  have hc := hinv.counters
  rw [h.faults, h.total]
  exact ⟨toNat_succ (by omega), toNat_succ hlt⟩

end PagedIn

/-- A resident page is not the page of a fault. -/
theorem ne_of_faultsOn {b : Block} {p q : Vpn} (hf : b.faultsOn p) (hq : b.resident q) : q ≠ p := by
  rintro rfl
  rw [Block.resident, hf.2] at hq
  cases hq

/-- The cursor as a frame number: the faults so far modulo 256 (R30, R142). -/
theorem allocPtr_eq_ofNat {image : Memory} {b : Block} (h : b.Inv image) :
    b.allocPtr = BitVec.ofNat 8 (b.faults.toNat % 256) := by
  apply BitVec.eq_of_toNat_eq
  rw [h.allocPtr, BitVec.toNat_ofNat]
  exact (Nat.mod_mod _ 256).symm

theorem evictions_eq (b : Block) : b.evictions = b.faults.toNat - 256 := rfl

/-- Settles O38: the cursor counts the faults modulo 256, and the first 256 faults evict nothing. -/
theorem fifoEvictsFramesInTurn : Obligations.FifoEvictsFramesInTurn := by
  unfold Obligations.FifoEvictsFramesInTurn
  intro s va hs hr hb hpol hfull hf
  obtain ⟨h, -⟩ := hs.2 hr
  obtain ⟨t, victim, ht, hpaged, hvictim⟩ := fifo_fault h hb hpol hf
  obtain ⟨q, hq⟩ := (h.boundFrames s.block.allocPtr).2 (.inl hfull)
  have hle : 256 ≤ s.block.faults.toNat := h.fullAt.1 hfull
  have hevictions : t.block.evictions = s.block.evictions + 1 := by
    rw [evictions_eq, evictions_eq, (toNat_counts_of_pagedIn hpaged h hb).1]
    omega
  have hmod : (t.block.evictions - 1) % 256 = s.block.faults.toNat % 256 := by
    rw [hevictions, evictions_eq]
    omega
  have hne : q ≠ vpnOf va := ne_of_faultsOn hf ((Block.owns_iff ..).1 hq).1
  refine ⟨t, q, ht, hevictions, ?_, not_resident_victim hpaged hne ((hvictim q).2 hq), ?_⟩ <;>
    rw [hmod, ← allocPtr_eq_ofNat h]
  · exact hq
  · exact owns_of_pagedIn hpaged

/-! ### A run of faults on distinct pages under FIFO (R151) -/

/-- The state after a fault on each of these distinct pages in order, from a FIFO reset: the last 256 pages
are resident, page `k` in frame `k mod 256`, and those before them have been evicted. -/
structure LoadedInTurn (pages : List Vpn) (s : State) : Prop where
  wasReset : s.wasReset = true
  inv : s.block.Inv s.backing
  policy : s.block.policy = .fifo
  err : s.block.err = .none
  total : s.block.total.toNat = pages.length
  faults : s.block.faults.toNat = pages.length
  hits : s.block.hits = 0
  slots : ∀ i, (s.block.slot i).valid = true → (s.block.slot i).vpn ∈ pages
  resident : ∀ p, s.block.resident p → p ∈ pages
  kept : ∀ k p, pages[k]? = some p → pages.length ≤ k + 256 →
    s.block.owns p (BitVec.ofNat 8 (k % 256))
  evicted : ∀ k p, pages[k]? = some p → k + 256 < pages.length → ¬ s.block.resident p

theorem loadedInTurn_boot (image : Memory) (moves : List HostMove) :
    LoadedInTurn [] { State.boot 0 image with inbox := moves } where
  wasReset := rfl
  inv := Block.inv_reset ..
  policy := rfl
  err := rfl
  total := rfl
  faults := rfl
  hits := rfl
  slots := by simp [State.boot]
  resident := by simp [State.boot, Block.resident]
  kept := by simp
  evicted := by simp

/-- The host's moves have no part in it. -/
theorem LoadedInTurn.withInbox {pages : List Vpn} {s : State} (h : LoadedInTurn pages s)
    (moves : List HostMove) : LoadedInTurn pages { s with inbox := moves } :=
  ⟨h.wasReset, h.inv, h.policy, h.err, h.total, h.faults, h.hits, h.slots, h.resident, h.kept, h.evicted⟩

/-- The next page of such a run is a fault (R171). -/
theorem LoadedInTurn.faultsOn {pages : List Vpn} {s : State} (h : LoadedInTurn pages s) {p : Vpn}
    (hp : p ∉ pages) : s.block.faultsOn p := by
  refine ⟨fun i => ?_, Bool.eq_false_iff.2 fun hr => hp (h.resident p hr)⟩
  rw [Bool.eq_false_iff, ne_eq, TlbSlot.holds_iff]
  rintro ⟨hv, rfl⟩
  exact hp (h.slots i hv)

/-- The frame of fault `k` is at the cursor again only 256 faults later (R142). -/
theorem ofNat_mod_ne {k n : Nat} (hk : k < n) (hn : n < k + 256) :
    BitVec.ofNat 8 (k % 256) ≠ BitVec.ofNat 8 (n % 256) := by
  intro h
  have h := congrArg BitVec.toNat h
  simp only [BitVec.toNat_ofNat] at h
  omega

/-- The place of a page on a list with one page more. -/
theorem getElem?_concat_cases {α : Type} {l : List α} {a x : α} {k : Nat}
    (h : (l ++ [a])[k]? = some x) : (k < l.length ∧ l[k]? = some x) ∨ (k = l.length ∧ x = a) := by
  rcases Nat.lt_or_ge k l.length with hk | hk
  · rw [List.getElem?_append_left hk] at h
    exact .inl ⟨hk, h⟩
  · rw [List.getElem?_append_right hk, List.getElem?_singleton] at h
    split at h
    · cases h
      exact .inr ⟨by omega, rfl⟩
    · cases h

/-- One fault more of such a run (R150): the page of 256 faults before, which owns the frame at the cursor, is
evicted. -/
theorem LoadedInTurn.step {pages : List Vpn} {s : State} (h : LoadedInTurn pages s) {va : Va}
    (hp : vpnOf va ∉ pages) (hn : pages.length + 1 < 2 ^ 32) :
    ∃ t, exec (.translate va) s = .next t ∧ t.inbox = s.inbox ∧
      LoadedInTurn (pages ++ [vpnOf va]) t := by
  have hf := h.faultsOn hp
  have hb : s.block.ready := by
    refine ⟨h.err, fun hmax => ?_⟩
    have hlast : 2 ^ 32 - 1 = pages.length := (congrArg BitVec.toNat hmax).symm.trans h.total
    omega
  obtain ⟨t, victim, ht, hpaged, hvictim⟩ := fifo_fault h.inv hb h.policy hf
  obtain ⟨hfaults, htotal⟩ := toNat_counts_of_pagedIn hpaged h.inv hb
  have hcursor : s.block.allocPtr = BitVec.ofNat 8 (pages.length % 256) := by
    rw [allocPtr_eq_ofNat h.inv, h.faults]
  have hne : ∀ (k : Nat) (p : Vpn), pages[k]? = some p → p ≠ vpnOf va := by
    rintro k p hk rfl
    exact hp (List.mem_of_getElem? hk)
  refine ⟨t, ht, by rw [hpaged.others], ?_⟩
  exact {
    wasReset := by rw [hpaged.others]; exact h.wasReset
    inv := by cases ht; exact inv_translate h.inv va
    policy := hpaged.policy.trans h.policy
    err := hpaged.err.trans h.err
    total := by rw [htotal, h.total, List.length_append]; rfl
    faults := by rw [hfaults, h.faults, List.length_append]; rfl
    hits := hpaged.hits.trans h.hits
    slots := fun i hv => by
      rw [hpaged.slots] at hv ⊢
      split
      · simp
      · rename_i hi
        rw [if_neg hi] at hv
        exact List.mem_append_left _ (h.slots i hv)
    resident := fun p hr => by
      by_cases hpv : p = vpnOf va
      · simp [hpv]
      · exact List.mem_append_left _ (h.resident p (resident_of_pagedIn hpaged hpv hr))
    kept := fun k p hk hle => by
      rw [List.length_append] at hle
      rcases getElem?_concat_cases hk with ⟨hlt, hk⟩ | ⟨rfl, rfl⟩
      · have ho := h.kept k p hk (by omega)
        refine (ptEntry_of_pagedIn hpaged (hne k p hk) fun hv => ?_).trans ho
        have hsame := Block.owns_frame_unique ho ((hvictim p).1 hv)
        rw [hcursor] at hsame
        exact ofNat_mod_ne hlt (Nat.lt_of_succ_le hle) hsame
      · rw [← hcursor]
        exact owns_of_pagedIn hpaged
    evicted := fun k p hk hlt => by
      rw [List.length_append, List.length_singleton] at hlt
      obtain ⟨-, hk⟩ := (getElem?_concat_cases hk).resolve_right fun h => by omega
      rcases Nat.lt_or_eq_of_le (Nat.le_of_lt_succ hlt) with hold | hnow
      · exact fun hr => h.evicted k p hk hold (resident_of_pagedIn hpaged (hne k p hk) hr)
      · refine not_resident_victim hpaged (hne k p hk) ((hvictim p).2 ?_)
        rw [hcursor, ← hnow, Nat.add_mod_right]
        exact h.kept k p hk hnow.ge }

/-- A run of TRANSLATEs of pages that are distinct, and distinct from those loaded before. -/
theorem LoadedInTurn.run (vas : List Va) {pages : List Vpn} {s : State} (h : LoadedInTurn pages s)
    (hnodup : (pages ++ vas.map vpnOf).Nodup) (hn : pages.length + vas.length < 2 ^ 32)
    (hi : s.inbox = vas.map fun va => .request (encode (.translate va))) :
    ∃ t, Machine.run vas.length s = .next t ∧ LoadedInTurn (pages ++ vas.map vpnOf) t := by
  induction vas generalizing pages s with
  | nil => exact ⟨s, rfl, by simpa using h⟩
  | cons va vas ih =>
    rw [List.map_cons] at hi hnodup
    rw [List.length_cons] at hn
    have hp : vpnOf va ∉ pages := fun hmem => by
      simpa [hmem] using (List.nodup_append.1 hnodup).2.2 _ hmem (vpnOf va)
    have hdecode : decode (encode (.translate va)) = .instr (.translate va) :=
      (decode_eq_instr_iff ..).2 ⟨commandField_encode _, operandField_encode _⟩
    have hstep := Memory.step_decoded h.wasReset hi hdecode
    obtain ⟨u, hu, hui, hloaded⟩ := (h.withInbox _).step hp (by omega)
    rw [List.append_cons] at hnodup
    have hlength : (pages ++ [vpnOf va]).length = pages.length + 1 := List.length_append
    obtain ⟨t, ht, hfinal⟩ := ih hloaded hnodup (by omega) hui
    refine ⟨t, (run_succ_of_next (hstep.trans hu) _).trans ht, ?_⟩
    rwa [List.map_cons, List.append_cons]

/-- Settles O39: the state after 257 faults on distinct pages, by `LoadedInTurn.run`. -/
theorem firstPageLoadedIsFirstEvicted : Obligations.FirstPageLoadedIsFirstEvicted := by
  unfold Obligations.FirstPageLoadedIsFirstEvicted
  intro image vas hlen hnodup
  obtain ⟨t, hrun, h⟩ := LoadedInTurn.run vas (loadedInTurn_boot image _) hnodup (by simp [hlen]) rfl
  rw [hlen] at hrun
  rw [List.nil_append] at h
  have hlength : (vas.map vpnOf).length = 257 := List.length_map .. |>.trans hlen
  have hpage : ∀ k va, vas[k]? = some va → (vas.map vpnOf)[k]? = some (vpnOf va) := fun k va hk => by
    rw [List.getElem?_map, hk]
    rfl
  have hfaults : t.block.faults.toNat = 257 := h.faults.trans hlength
  refine ⟨t, hrun, BitVec.eq_of_toNat_eq hfaults, h.hits, h.err, ?_, ?_, fun va hva => ?_,
    fun k va hk _ hva => ?_⟩
  · rw [h.inv.fullAt, hfaults]
    decide
  · rw [allocPtr_eq_ofNat h.inv, hfaults]
    rfl
  · exact h.evicted 0 _ (hpage 0 va hva) (by omega)
  · exact h.kept k _ (hpage k va hva) (by omega)

/-! ### LRU evicts the page used least recently (R146, R147) -/

/-- Settles O40: with FULL set a page is resident, so the scan finds a victim, and under the invariants no
other resident page has the victim's timestamp. -/
theorem lruEvictsTheLeastRecentlyUsedPage : Obligations.LruEvictsTheLeastRecentlyUsedPage := by
  unfold Obligations.LruEvictsTheLeastRecentlyUsedPage
  intro s va hs hr hb hpol hfull hf
  obtain ⟨h, -⟩ := hs.2 hr
  obtain ⟨q, hq⟩ := (h.boundFrames s.block.allocPtr).2 (.inl hfull)
  rcases lruVictim_spec s.block with ⟨-, hnone⟩ | ⟨v, -, hv, hmin⟩
  · exact absurd ((Block.owns_iff ..).1 hq).1 (hnone q)
  · have howns : s.block.owns v (s.block.ptEntry v).frame := (Block.owns_iff ..).2 ⟨hv, rfl⟩
    obtain ⟨t, ht, hpaged⟩ :=
      lruFaultEvictsTheSmallestTimestamp s va v _ hb h.pmWf hf hfull hpol howns hmin
    refine ⟨t, v, _, ht, howns, fun p hp hne => ?_, not_resident_victim hpaged (ne_of_faultsOn hf hv) rfl,
      owns_of_pagedIn hpaged, fun p hpv hp => ptEntry_of_pagedIn hpaged hp (by simpa using hpv)⟩
    refine (hmin p hp hne).resolve_right fun heq => hne ?_
    exact h.stampsDistinct hpol p v hp hv heq.1.symm

/-! ### The data byte (R159) -/

/-- A TRANSLATE that answers XLATE has completed, and its byte is the one at its physical address in the block
after it (R177). -/
theorem resolved_of_translate_xlate {inv : Bool} {image : Memory} {va va' : Va} {b : Block} {pa : PhysAddr}
    {d : Byte} (hx : (translate inv image va b).2 = .xlate va' pa d) :
    va' = va ∧ ∃ f, Resolved inv image b (vpnOf va) f (translate inv image va b).1 ∧
      d = memRead (translate inv image va b).1 (physAddr f (offsetOf va)) := by
  rcases translate_cases inv image va b with
    ⟨-, ht⟩ | ⟨-, -, ht⟩ | ⟨-, e, -, ht⟩ | ⟨-, ⟨c, f⟩, hres, ht⟩ <;> rw [ht] at hx ⊢
  · cases hx
  · cases hx
  · cases hx
  · cases hx
    exact ⟨rfl, f, resolved_of_resolve hres, rfl⟩

section Byte
variable {inv : Bool} {image : Memory} {b c : Block} {p : Vpn} {f : FrameNo}

/-- Where no slot that holds the page is stale, the page owns the frame that its TRANSLATE resolved (R108). -/
theorem owns_of_current (hres : Resolved inv image b p f c)
    (hcur : ∀ i, (b.slot i).holds p = true → ¬ b.stale (b.slot i)) : c.owns p f := by
  cases hres with
  | tlbHit hl =>
    obtain ⟨i, hi, rfl, -⟩ := (tlbLookup_eq_some_iff ..).1 hl
    obtain ⟨hv, rfl⟩ := (TlbSlot.holds_iff ..).1 hi
    exact (Block.not_stale_iff ..).1 (hcur i hi) hv
  | tableHit hl ho => exact ho
  | fault b' hf hs => exact (afterFault_owns ..).2 (.inl ⟨rfl, rfl⟩)

/-- A TRANSLATE of a page that slot `i` holds resolves the slot's frame, and leaves the page table (R107,
R174). -/
theorem frame_of_slot (hres : Resolved inv image b p f c) (h : b.Inv image) {i : TlbIndex}
    (hi : (b.slot i).holds p = true) : f = (b.slot i).frame ∧ c.pt = b.pt := by
  obtain ⟨hv, hp⟩ := (TlbSlot.holds_iff ..).1 hi
  have hslot : b.slot i = ⟨true, p, (b.slot i).frame⟩ := by rw [← hv, ← hp]
  have hl := tlbLookup_of_slot h hslot
  cases hres with
  | tlbHit hl' => exact ⟨Option.some.inj (hl'.symm.trans hl), rfl⟩
  | tableHit hm ho => exact absurd (hm i) (by simp [hi])
  | fault b' hf hs => exact absurd (hf.1 i) (by simp [hi])

/-- In a block that meets the invariants, a TRANSLATE that completes resolves a bound frame (R111). -/
theorem bound_of_resolved (hres : Resolved inv image b p f c) (h : b.Inv image) : c.bound f := by
  cases hres with
  | tlbHit hl =>
    obtain ⟨i, hi, rfl, -⟩ := (tlbLookup_eq_some_iff ..).1 hl
    exact h.tlbBound i ((TlbSlot.holds_iff ..).1 hi).1
  | tableHit hl ho => exact ⟨p, ho⟩
  | fault b' hf hs => exact ⟨p, (afterFault_owns ..).2 (.inl ⟨rfl, rfl⟩)⟩

end Byte

/-- A TRANSLATE that answers XLATE and does not hit stale answers the byte of its own address (R159). -/
theorem byte_of_current {inv : Bool} {image : Memory} {va va' : Va} {b : Block} {pa : PhysAddr} {d : Byte}
    (h : b.Inv image) (hcur : ∀ i, (b.slot i).holds (vpnOf va) = true → ¬ b.stale (b.slot i))
    (hx : (translate inv image va b).2 = .xlate va' pa d) :
    va' = va ∧ d = backingRead image (usedBits va) := by
  obtain ⟨hva, f, hres, hd⟩ := resolved_of_translate_xlate hx
  refine ⟨hva, ?_⟩
  rw [hd, (inv_translate h va).contents _ f (owns_of_current hres hcur), backAddr_vpnOf_offsetOf]

/-- A TRANSLATE that answers XLATE with a slot holding its page answers the byte of the page that owns the
slot's frame (R108, R157). -/
theorem byte_of_slot {inv : Bool} {image : Memory} {va va' : Va} {b : Block} {pa : PhysAddr} {d : Byte}
    (h : b.Inv image) {i : TlbIndex} (hi : (b.slot i).holds (vpnOf va) = true)
    (hx : (translate inv image va b).2 = .xlate va' pa d) :
    ∃ q, b.owns q (b.slot i).frame ∧ d = backingRead image (backAddr q (offsetOf va)) := by
  obtain ⟨-, f, hres, hd⟩ := resolved_of_translate_xlate hx
  obtain ⟨rfl, hpt⟩ := frame_of_slot hres h hi
  obtain ⟨q, hq⟩ := h.tlbBound i ((TlbSlot.holds_iff ..).1 hi).1
  exact ⟨q, hq, hd.trans ((inv_translate h va).contents q _ ((Block.owns_congr hpt ..).2 hq) _)⟩

/-- The only request that answers XLATE is TRANSLATE (R88). -/
theorem translate_of_serve_xlate {inv : Bool} {image : Memory} {w : ReqWord} {b : Block} {va : Va}
    {pa : PhysAddr} {d : Byte} (hx : (serve inv image w b).2 = .xlate va pa d) :
    ∃ va', (translate inv image va' b).2 = .xlate va pa d := by
  unfold serve at hx
  rcases hd : decode w with (va' | x) | c <;> rw [hd] at hx
  · exact ⟨va', hx⟩
  · cases hx
  · cases hx

/-- What holds of the response to every request in a block with a property that requests keep, holds of all
responses to a sequence of requests. -/
theorem serveAll_responses {inv : Bool} {image : Memory} {P : Block → Prop} {Q : Response → Prop}
    (hserve : ∀ w b, P b → P (serve inv image w b).1) (hresp : ∀ w b, P b → Q (serve inv image w b).2)
    (ws : List ReqWord) {b : Block} (hb : P b) : ∀ r ∈ (serveAll inv image ws b).2, Q r := by
  induction ws generalizing b with
  | nil => exact fun r hr => absurd hr List.not_mem_nil
  | cons w ws ih => exact List.forall_mem_cons.2 ⟨hresp w b hb, ih (hserve w b hb)⟩

/-- Settles O41: the byte is the resolved frame's in the block after the request, and the invariants give a
bound frame its owner's bytes; in the variant no slot is stale. -/
theorem dataByteIsTheOwnersByte : Obligations.DataByteIsTheOwnersByte := by
  unfold Obligations.DataByteIsTheOwnersByte
  refine ⟨fun s t va pa d hs hr h hx => ?_, fun image k ws va pa d hmem => ?_⟩
  · obtain ⟨hinv, -⟩ := hs.2 hr
    cases h
    have hx : (translate INVALIDATE_ON_UNBIND s.backing va s.block).2 = .xlate va pa d := by
      simpa using hx
    exact ⟨fun hcur => (byte_of_current hinv hcur hx).2, fun i hi _ => byte_of_slot hinv hi hx,
      fun h0 => (byte_of_current hinv (fun i _ => hinv.coherentBeforeEviction h0 i) hx).2⟩
  · have hkeep : ∀ w b, b.Inv image ∧ b.coherent →
        (serve true image w b).1.Inv image ∧ (serve true image w b).1.coherent :=
      fun w b ⟨h, hb⟩ => ⟨inv_serve h w, coherent_serve h hb w⟩
    refine serveAll_responses (Q := fun r => ∀ va pa d, r = .xlate va pa d →
      d = backingRead image (usedBits va)) hkeep ?_ ws
      ⟨Block.inv_reset image k, coherent_serveAll_reset image k []⟩ _ hmem va pa d rfl
    intro w b ⟨h, hb⟩ va pa d hx
    obtain ⟨va', hx⟩ := translate_of_serve_xlate hx
    obtain ⟨rfl, hd⟩ := byte_of_current h (fun i _ => hb i) hx
    exact hd

/-! ### Other contents of the physical memory (R158) -/

/-- The block with another physical memory. -/
def withPm (m : Memory) (b : Block) : Block := { b with pm := m }

/-- The invariants speak of the physical memory by its form and by the contents of the bound frames
alone. -/
theorem inv_withPm {image m : Memory} {b : Block} (h : b.Inv image) (hw : Memory.wf PM_SIZE m = true)
    (hc : ∀ p f, b.owns p f → ∀ off,
      memRead (withPm m b) (physAddr f off) = backingRead image (backAddr p off)) :
    (withPm m b).Inv image :=
  ⟨hw, h.counters, h.tlbPtr, h.tlbUnique, h.tlbBound, h.ownerUnique, h.boundFrames, h.allocPtr, h.fullAt,
    hc, h.stampsFifo, h.stampsLru, h.stampsDistinct, h.coherentBeforeEviction, h.owned⟩

/-- Blocks that meet the invariants and differ in the physical memory alone hold the same bytes in the bound
frames (R157). -/
theorem memRead_withPm_of_bound {image m : Memory} {b : Block} (h : b.Inv image)
    (hm : (withPm m b).Inv image) {f : FrameNo} (hf : b.bound f) (off : Offset) :
    memRead (withPm m b) (physAddr f off) = memRead b (physAddr f off) := by
  obtain ⟨q, hq⟩ := hf
  rw [hm.contents q f hq, h.contents q f hq]

theorem ptUnbind_advanceCursor_withPm (inv : Bool) (m : Memory) (b : Block) (p : Vpn) :
    ptUnbind inv (advanceCursor (withPm m b)) p = withPm m (ptUnbind inv (advanceCursor b) p) := by
  cases inv <;> rfl

/-- Frame selection does not look at the physical memory (R141). -/
theorem selectFrame_withPm (inv : Bool) (m : Memory) (b : Block) :
    selectFrame inv (withPm m b) = (selectFrame inv b).map (Prod.map (withPm m) id) := by
  cases hs : selectFrame inv b with
  | error e =>
    exact (selectFrame_eq_error_iff inv (withPm m b) e).2 ((selectFrame_eq_error_iff inv b e).1 hs)
  | ok r =>
    obtain ⟨c, f⟩ := r
    rcases selectFrame_ok hs with ⟨hfree, rfl, rfl⟩ |
      ⟨hfull, v, hv, rfl, ⟨hpol, rfl, hq⟩ | ⟨hpol, hl⟩⟩
    · exact selectFrame_of_free inv (b := withPm m b) hfree
    · exact (selectFrame_of_fifo inv (b := withPm m b) hfull hpol hq).trans
        (by rw [ptUnbind_advanceCursor_withPm]; rfl)
    · obtain ⟨-, rfl⟩ := (Block.owns_iff ..).1 hv
      exact (selectFrame_of_lru inv (b := withPm m b) hfull hpol hl).trans
        (by rw [ptUnbind_advanceCursor_withPm]; rfl)

/-- The fault path does not look at the physical memory: what differed in it alone still does (R149,
R175). -/
theorem afterFault_withPm (image m : Memory) (ord : Count) (p : Vpn) (f : FrameNo) (c : Block) :
    ∃ m', afterFault image ord p f (withPm m c) = withPm m' (afterFault image ord p f c) := by
  obtain ⟨m', hload⟩ : ∃ m', loadPage image (withPm m c) p f = withPm m' (loadPage image c p f) :=
    ⟨(loadPage image (withPm m c) p f).pm, rfl⟩
  refine ⟨m', ?_⟩
  rw [afterFault, afterFault, hload]
  generalize loadPage image c p f = d
  rfl

/-- The pipeline with another physical memory: the same outcome, and the block after it differs in the
physical memory alone. -/
theorem resolve_withPm (inv : Bool) (image : Memory) (ord : Count) (p : Vpn) (m : Memory) (b : Block) :
    ∃ m', resolve inv image ord p (withPm m b) =
      (resolve inv image ord p b).map (Prod.map (withPm m') id) := by
  have ho : outcomeOf (withPm m b) p = outcomeOf b p := outcomeOf_congr rfl rfl p
  unfold resolve
  rw [ho]
  cases outcomeOf b p with
  | tlbHit f => exact ⟨m, rfl⟩
  | tableHit f => exact ⟨m, rfl⟩
  | pageFault =>
    have hs : selectFrame inv (countFault (withPm m b)) = _ := selectFrame_withPm inv m (countFault b)
    unfold pageIn
    rw [hs]
    cases selectFrame inv (countFault b) with
    | error e => exact ⟨m, rfl⟩
    | ok r =>
      obtain ⟨m', hm'⟩ := afterFault_withPm image m ord p r.2 r.1
      exact ⟨m', congrArg (fun c => Except.ok (c, r.2)) hm'⟩

section WithPm
variable {inv : Bool} {image m : Memory} {b : Block} (h : b.Inv image) (hm : (withPm m b).Inv image)
include h hm

/-- TRANSLATE in blocks that meet the invariants and differ in the physical memory alone: the same response,
since its byte is read from a bound frame (R158). -/
theorem translate_withPm (va : Va) : ∃ m', translate inv image va (withPm m b) =
    (withPm m' (translate inv image va b).1, (translate inv image va b).2) := by
  obtain ⟨m', hm'⟩ := resolve_withPm inv image (ordinalOf b) (vpnOf va) m (countRequest b)
  rcases translate_cases inv image va b with
    ⟨he, ht⟩ | ⟨he, hmax, ht⟩ | ⟨hb, e, hr, ht⟩ | ⟨hb, ⟨c, f⟩, hr, ht⟩ <;> rw [ht]
  · exact ⟨m, if_pos he⟩
  · exact ⟨m, (if_neg (not_not_intro he)).trans (if_pos hmax)⟩
  · have hr' : resolve inv image (ordinalOf (withPm m b)) (vpnOf va) (countRequest (withPm m b)) =
        .error e := hm'.trans (by rw [hr]; rfl)
    refine ⟨m, (translate_ready (b := withPm m b) hb).trans ?_⟩
    rw [hr']
    rfl
  · have hr' : resolve inv image (ordinalOf (withPm m b)) (vpnOf va) (countRequest (withPm m b)) =
        .ok (withPm m' c, f) := hm'.trans (by rw [hr]; rfl)
    have hres := resolved_of_resolve hr
    have hc : c.Inv image := hres.keeps_inv h hb.2
    have hc' : (withPm m' c).Inv image := (resolved_of_resolve hr').keeps_inv hm hb.2
    refine ⟨m', (translate_ready (b := withPm m b) hb).trans ?_⟩
    rw [hr']
    simp only [finishXlate, memRead_withPm_of_bound hc hc' (bound_of_resolved hres h)]

/-- A request in such blocks: the same response (R158). -/
theorem serve_withPm (w : ReqWord) : ∃ m', serve inv image w (withPm m b) =
    (withPm m' (serve inv image w b).1, (serve inv image w b).2) := by
  unfold serve
  rcases decode w with (va | x) | c
  · exact translate_withPm h hm va
  · exact ⟨m, rfl⟩
  · exact ⟨m, rfl⟩

end WithPm

/-- Requests in blocks that meet the invariants and differ in the physical memory alone: the same responses
(R158). -/
theorem serveAll_withPm {inv : Bool} {image : Memory} (ws : List ReqWord) {m : Memory} {b : Block}
    (h : b.Inv image) (hm : (withPm m b).Inv image) :
    (serveAll inv image ws (withPm m b)).2 = (serveAll inv image ws b).2 := by
  induction ws generalizing m b with
  | nil => rfl
  | cons w ws ih =>
    obtain ⟨m', hm'⟩ := serve_withPm (inv := inv) h hm w
    have hnext := inv_serve (inv := inv) hm w
    rw [hm'] at hnext
    simp only [serveAll, hm', ih (inv_serve h w) hnext]

/-- Settles O44: a block right after reset meets the invariants whatever its physical memory holds, since it
has no bound frame. -/
theorem resetContentsOfMemoryAreNeverObserved : Obligations.ResetContentsOfMemoryAreNeverObserved := by
  unfold Obligations.ResetContentsOfMemoryAreNeverObserved
  intro image m k ws hw
  have h := Block.inv_reset image k
  refine serveAll_withPm ws h (inv_withPm h hw fun p f hp => ?_)
  simp [Block.owns] at hp

end Sys2Proof.Proofs.FrameAllocator
end

/-! ## The translation pipeline (44_pipeline.md) -/

section
namespace Sys2Proof.Proofs.Pipeline

open Config Machine Tlb FrameAllocator

/-- TRANSLATE as an instruction is TRANSLATE on the block, and its response (R89, R170). -/
theorem exec_translate (va : Va) (s : State) : exec (.translate va) s =
    .next (s.answer (translate INVALIDATE_ON_UNBIND s.backing va s.block)) := rfl

/-! ### READ_STATS (R180) -/

/-- Settles O22: READ_STATS answers the block's own fields, which a reset makes zeros. -/
theorem readStatsAnswersTheCounters : Obligations.ReadStatsAnswersTheCounters := by
  unfold Obligations.ReadStatsAnswersTheCounters
  refine ⟨fun _ _ => rfl, fun s rest x hi => ?_⟩
  have hstep : step s = .next (State.resetBlock { s with inbox := rest }) := by
    simp only [step, fetch, hi]
  exact ⟨_, _, hstep, rfl, rfl⟩

/-! ### A TLB hit and a table hit, whole (R174, R176 to R178) -/

/-- Settles O23: the lookup finds the lowest slot that holds the page, and a hit is `translate_of_tlbLookup`. -/
theorem tlbHitWritesOnlyTotalAndHits : Obligations.TlbHitWritesOnlyTotalAndHits := by
  unfold Obligations.TlbHitWritesOnlyTotalAndHits
  intro s va i hb hv hp hlow
  have hl : tlbLookup s.block (vpnOf va) = some (s.block.slot i).frame := by
    refine (tlbLookup_eq_some_iff ..).2 ⟨i, (TlbSlot.holds_iff ..).2 ⟨hv, hp⟩, rfl, fun j hj => ?_⟩
    rw [Bool.eq_false_iff, ne_eq, TlbSlot.holds_iff]
    exact hlow j hj
  rw [exec_translate, translate_of_tlbLookup hb hl]
  rfl

/-- The timestamp update as one update of the block (R176). -/
theorem touchStamp_eq (b : Block) (p : Vpn) (ord : Count) : touchStamp b p ord =
    { b with ts := if b.policy = .lru then b.ts.set p.toNat ord p.isLt else b.ts } := by
  unfold touchStamp
  cases b.policy with
  | fifo => rfl
  | lru => rfl

/-- A table hit, with the byte that the page's frame holds (R176 to R178). -/
theorem translate_of_tableHit {inv : Bool} {image : Memory} {va : Va} {b : Block} {f : FrameNo}
    (hb : b.ready) (hm : b.tlbMisses (vpnOf va)) (ho : b.owns (vpnOf va) f) :
    translate inv image va b =
      (tlbInsert (touchStamp (countRequest b) (vpnOf va) (ordinalOf b)) (vpnOf va) f,
        .xlate va (physAddr f (offsetOf va)) (memRead b (physAddr f (offsetOf va)))) := by
  have hout : outcomeOf (countRequest b) (vpnOf va) = .tableHit f :=
    (outcomeOf_eq_tableHit_iff ..).2 ⟨(tlbLookup_eq_none_iff ..).2 hm, ho⟩
  rw [translate_ready hb, resolve, hout]
  rfl

/-- Settles O24, by `translate_of_tableHit` with the timestamp update written out. -/
theorem tableHitRefreshesAndInserts : Obligations.TableHitRefreshesAndInserts := by
  unfold Obligations.TableHitRefreshesAndInserts
  intro s va f hb hm ho
  rw [exec_translate, translate_of_tableHit hb hm ho, touchStamp_eq]
  rfl

/-! ### Which outcome it was (R171) -/

/-- Frame selection leaves HITS and FAULTS (R141). -/
theorem selectFrame_hits_faults {inv : Bool} {b c : Block} {f : FrameNo}
    (h : selectFrame inv b = .ok (c, f)) : c.hits = b.hits ∧ c.faults = b.faults := by
  rcases selectFrame_ok h with ⟨-, -, rfl⟩ | ⟨-, v, -, rfl, -⟩
  · exact ⟨rfl, rfl⟩
  · simp

/-- A page whose request faults owns no frame (R171). -/
theorem not_owns_of_faultsOn {b : Block} {p : Vpn} (hf : b.faultsOn p) (f : FrameNo) : ¬ b.owns p f := by
  rw [Block.owns_iff, hf.2]
  exact fun ho => Bool.noConfusion ho.1

/-- Where the lookup hits, the TLB does not miss (R101). -/
theorem not_tlbMisses_of_lookup {b : Block} {p : Vpn} {f : FrameNo} (hl : tlbLookup b p = some f) :
    ¬ b.tlbMisses p := fun hm => by
  rw [(tlbLookup_eq_none_iff ..).2 hm] at hl
  cases hl

section Resolved
variable {inv : Bool} {image : Memory} {b c : Block} {p : Vpn} {f g : FrameNo}

/-- Where the lookup hits, its frame is the one resolved (R174, R177). -/
theorem frame_of_lookup (hres : Resolved inv image b p f c) (hl : tlbLookup b p = some g) : f = g := by
  cases hres with
  | tlbHit hl' => exact Option.some.inj (hl'.symm.trans hl)
  | tableHit hm ho => exact absurd hm (not_tlbMisses_of_lookup hl)
  | fault b' hf hs => exact absurd hf.1 (not_tlbMisses_of_lookup hl)

/-- Where the lookup misses and the page is resident, the outcome is a table hit, on the page table's frame
(R171, R178). -/
theorem tableHit_of_owns (hres : Resolved inv image b p f c) (hm : b.tlbMisses p) (ho : b.owns p g) :
    f = g ∧ c = tlbInsert (touchStamp (countRequest b) p (ordinalOf b)) p f := by
  cases hres with
  | tlbHit hl => exact absurd hm (not_tlbMisses_of_lookup hl)
  | tableHit _ ho' => exact ⟨Block.owns_frame_unique ho' ho, rfl⟩
  | fault b' hf hs => exact absurd ho (not_owns_of_faultsOn hf g)

/-- Where both lookups miss, the outcome is a fault, on the frame that selection gives (R171, R175). -/
theorem fault_of_faultsOn (hres : Resolved inv image b p f c) (hf : b.faultsOn p) :
    ∃ b', selectFrame inv (countFault (countRequest b)) = .ok (b', f) ∧
      c = afterFault image (ordinalOf b) p f b' := by
  cases hres with
  | tlbHit hl => exact absurd hf.1 (not_tlbMisses_of_lookup hl)
  | tableHit _ ho => exact absurd ho (not_owns_of_faultsOn hf f)
  | fault b' _ hs => exact ⟨b', hs, rfl⟩

/-- HITS and FAULTS after each outcome (R171, R173, R175). -/
theorem hits_faults_cases (hres : Resolved inv image b p f c) :
    (¬ b.tlbMisses p ∧ c.hits = b.hits + 1 ∧ c.faults = b.faults) ∨
    (b.tlbMisses p ∧ b.resident p ∧ c.hits = b.hits ∧ c.faults = b.faults) ∨
    (b.tlbMisses p ∧ ¬ b.resident p ∧ c.hits = b.hits ∧ c.faults = b.faults + 1) := by
  cases hres with
  | tlbHit hl => exact .inl ⟨not_tlbMisses_of_lookup hl, rfl, rfl⟩
  | tableHit hm ho => exact .inr (.inl ⟨hm, ((Block.owns_iff ..).1 ho).1, by simp⟩)
  | fault b' hf hs =>
    refine .inr (.inr ⟨hf.1, by simp [Block.resident, hf.2], ?_⟩)
    simpa using selectFrame_hits_faults hs

end Resolved

/-- Settles O29: no two of the three outcomes change HITS and FAULTS alike. -/
theorem exactlyOneOutcome : Obligations.ExactlyOneOutcome := by
  unfold Obligations.ExactlyOneOutcome
  intro s t va pa d h hx
  obtain ⟨-, f, hres⟩ := resolved_of_xlate h hx
  rcases hits_faults_cases hres with ⟨hm, hh, hf⟩ | ⟨hm, hr, hh, hf⟩ | ⟨hm, hr, hh, hf⟩
  · simp [hm, hh, hf]
  · simp [hm, hr, hh, hf]
  · simp [hm, hr, hh, hf]

/-! ### The counters along a sequence of requests (R172, R181) -/

/-- Whether a request completes with a table hit, in the terms of the state (R171, R206). -/
theorem isTableHit_iff (w : ReqWord) (b : Block) : isTableHit w b = true ↔
    ∃ va, decode w = .instr (.translate va) ∧ b.ready ∧ b.tlbMisses (vpnOf va) ∧ b.resident (vpnOf va) := by
  unfold isTableHit
  rcases decode w with (va | x) | c
  · simp only [Decoded.instr.injEq, Instr.translate.injEq, exists_eq_left']
    cases ho : outcomeOf b (vpnOf va) with
    | tlbHit f =>
      have hm := not_tlbMisses_of_lookup ((outcomeOf_eq_tlbHit_iff ..).1 ho)
      exact iff_of_false nofun fun h => hm h.2.1
    | tableHit f =>
      obtain ⟨hl, hp⟩ := (outcomeOf_eq_tableHit_iff ..).1 ho
      have hm : b.tlbMisses (vpnOf va) := (tlbLookup_eq_none_iff ..).1 hl
      have hr : b.resident (vpnOf va) := ((Block.owns_iff ..).1 hp).1
      simp [Block.ready, hm, hr]
    | pageFault =>
      obtain ⟨-, hv⟩ := (outcomeOf_eq_pageFault_iff ..).1 ho
      exact iff_of_false nofun fun ⟨_, _, hr⟩ => Bool.noConfusion (hv.symm.trans hr)
  · simp
  · simp

/-- Everything a TRANSLATE can do, with the kind of its response: an ERROR, which writes at most ERR, or one of
the three outcomes (R201, R206). -/
theorem translate_response_cases (inv : Bool) (image : Memory) (va : Va) (b : Block) :
    ((∃ e, (translate inv image va b).1 = { b with err := e }) ∧
      (∃ e, (translate inv image va b).2 = .error e) ∧ (b.ready → b.faultsOn (vpnOf va))) ∨
    (b.ready ∧ ∃ f, Resolved inv image b (vpnOf va) f (translate inv image va b).1 ∧
      (translate inv image va b).2 = .xlate va (physAddr f (offsetOf va))
        (memRead (translate inv image va b).1 (physAddr f (offsetOf va)))) := by
  rcases translate_cases inv image va b with
    ⟨he, ht⟩ | ⟨-, hmax, ht⟩ | ⟨-, e, hr, ht⟩ | ⟨hb, ⟨c, f⟩, hr, ht⟩ <;> rw [ht]
  · exact .inl ⟨⟨_, rfl⟩, ⟨_, rfl⟩, fun hb => absurd hb.1 he⟩
  · exact .inl ⟨⟨_, rfl⟩, ⟨_, rfl⟩, fun hb => absurd hmax hb.2⟩
  · exact .inl ⟨⟨_, rfl⟩, ⟨_, rfl⟩, fun _ => (Memory.faultsOn_iff_outcomeOf ..).2 (resolve_error hr).1⟩
  · exact .inr ⟨hb, f, resolved_of_resolve hr, rfl⟩

/-- Everything a request can do, as to what is counted: it answers no XLATE, writes at most ERR and is no table
hit, or it is a TRANSLATE that completes. -/
theorem serve_cases (inv : Bool) (image : Memory) (w : ReqWord) (b : Block) :
    ((∃ e, (serve inv image w b).1 = { b with err := e }) ∧ (serve inv image w b).2.isXlate = false ∧
      isTableHit w b = false) ∨
    (b.ready ∧ (serve inv image w b).2.isXlate = true ∧ ∃ va f, decode w = .instr (.translate va) ∧
      Resolved inv image b (vpnOf va) f (serve inv image w b).1) := by
  rw [Bool.eq_false_iff (b := isTableHit w b), ne_eq, isTableHit_iff]
  unfold serve
  rcases decode w with (va | x) | c
  · rcases translate_response_cases inv image va b with ⟨he, ⟨e, hr⟩, hf⟩ | ⟨hb, f, hres, hr⟩
    · refine .inl ⟨he, by rw [hr]; rfl, ?_⟩
      rintro ⟨va', hva, hb, -, hp⟩
      cases hva
      exact Bool.noConfusion ((hf hb).2.symm.trans hp)
    · exact .inr ⟨hb, by rw [hr]; rfl, va, f, rfl, hres⟩
  · exact .inl ⟨⟨_, rfl⟩, rfl, by simp⟩
  · exact .inl ⟨⟨_, rfl⟩, rfl, by simp⟩

/-- TOTAL counts the XLATE responses, one request at a time (R172). -/
theorem serve_total (inv : Bool) (image : Memory) (w : ReqWord) (b : Block) :
    (serve inv image w b).1.total.toNat =
      b.total.toNat + if (serve inv image w b).2.isXlate then 1 else 0 := by
  rcases serve_cases inv image w b with ⟨⟨e, hc⟩, hx, -⟩ | ⟨hb, hx, va, f, -, hres⟩
  · rw [hc, hx]
    rfl
  · rw [hres.total_err.1, ordinalOf_toNat hb.2, hx]
    rfl

/-- TOTAL counts the XLATE responses (R172). -/
theorem serveAll_total (inv : Bool) (image : Memory) (ws : List ReqWord) (b : Block) :
    (serveAll inv image ws b).1.total.toNat =
      b.total.toNat + (serveAll inv image ws b).2.countP Response.isXlate := by
  induction ws generalizing b with
  | nil => rfl
  | cons w ws ih =>
    rw [serveAll, ih, serve_total, List.countP_cons]
    omega

/-- Settles O30: the response tells which case of TRANSLATE it was, and along a sequence of requests each XLATE
adds one to TOTAL. -/
theorem ordinalIsTheNumberOfCompletedRequests : Obligations.OrdinalIsTheNumberOfCompletedRequests := by
  unfold Obligations.OrdinalIsTheNumberOfCompletedRequests
  refine ⟨fun s t va h => ⟨fun pa d hx => ?_, fun e hx => ?_⟩, fun image p ws => ?_⟩
  · obtain ⟨hb, f, hres⟩ := resolved_of_xlate h hx
    rw [hres.total_err.1, ordinalOf_toNat hb.2]
  · cases h
    have hr : (translate INVALIDATE_ON_UNBIND s.backing va s.block).2 = .error e := by simpa using hx
    rcases translate_response_cases INVALIDATE_ON_UNBIND s.backing va s.block with
      ⟨⟨e', hc⟩, -, -⟩ | ⟨-, f, -, hr'⟩
    · rw [State.answer_block, hc]
    · rw [hr] at hr'
      cases hr'
  · simpa using serveAll_total INVALIDATE_ON_UNBIND image ws (Block.reset p)

/-- A request adds as much to HITS, FAULTS and the table hits together as to TOTAL, and no counter wraps
(R181). -/
theorem serve_conserves {inv : Bool} {image : Memory} {b : Block} (h : b.Inv image) (w : ReqWord) :
    (serve inv image w b).1.hits.toNat + (serve inv image w b).1.faults.toNat + (isTableHit w b).toNat +
        b.total.toNat =
      (serve inv image w b).1.total.toNat + b.hits.toNat + b.faults.toNat := by
  rcases serve_cases inv image w b with ⟨⟨e, hc⟩, -, hn⟩ | ⟨hb, -, va, f, hd, hres⟩
  · simp only [hc, hn, Bool.toNat_false]
    omega
  · have hlt := lt_of_ne_max hb.2
    have hcount := h.counters
    have hiff := isTableHit_iff w b
    rw [hres.total_err.1, ordinalOf_toNat hb.2]
    rcases hits_faults_cases hres with ⟨hm, hh, hf⟩ | ⟨hm, hr, hh, hf⟩ | ⟨hm, hr, hh, hf⟩
    · have hn : isTableHit w b = false := by simp [Bool.eq_false_iff, hiff, hd, hm]
      rw [hh, hf, hn, toNat_succ (by omega), Bool.toNat_false]
      omega
    · have hy : isTableHit w b = true := hiff.2 ⟨va, hd, hb, hm, hr⟩
      rw [hh, hf, hy, Bool.toNat_true]
      omega
    · have hn : isTableHit w b = false := by simp [Bool.eq_false_iff, hiff, hd, hr]
      rw [hh, hf, hn, toNat_succ (by omega), Bool.toNat_false]
      omega

/-- The counters are conserved along a sequence of requests (R181). -/
theorem serveAll_conserves {inv : Bool} {image : Memory} (ws : List ReqWord) {b : Block} (h : b.Inv image) :
    (serveAll inv image ws b).1.hits.toNat + (serveAll inv image ws b).1.faults.toNat +
        tableHits inv image ws b + b.total.toNat =
      (serveAll inv image ws b).1.total.toNat + b.hits.toNat + b.faults.toNat := by
  induction ws generalizing b with
  | nil =>
    simp only [serveAll, tableHits]
    omega
  | cons w ws ih =>
    have hw := serve_conserves (inv := inv) h w
    have hws := ih (inv_serve (inv := inv) h w)
    simp only [serveAll, tableHits]
    omega

/-- Settles O45: right after reset the three counters are 0. -/
theorem countersAreConserved : Obligations.CountersAreConserved := by
  unfold Obligations.CountersAreConserved
  intro image p ws
  simpa using serveAll_conserves (inv := INVALIDATE_ON_UNBIND) ws (Block.inv_reset image p)

/-! ### The response (R177) -/

/-- A TRANSLATE that answers XLATE echoes its operand, and answers the address in the resolved frame and the byte
there in the block after it (R177). -/
theorem response_of_xlate {s t : State} {va va' : Va} {pa : PhysAddr} {d : Byte}
    (h : exec (.translate va) s = .next t) (hx : t.outbox = s.outbox ++ [.xlate va' pa d]) :
    va' = va ∧ d = memRead t.block pa ∧ ∃ f, pa = physAddr f (offsetOf va) ∧
      Resolved false s.backing s.block (vpnOf va) f t.block := by
  cases h
  have hr : (translate INVALIDATE_ON_UNBIND s.backing va s.block).2 = .xlate va' pa d := by
    simpa using hx
  rcases translate_response_cases INVALIDATE_ON_UNBIND s.backing va s.block with
    ⟨-, ⟨e, hr'⟩, -⟩ | ⟨-, f, hres, hr'⟩ <;> rw [hr] at hr'
  · cases hr'
  · cases hr'
    exact ⟨rfl, rfl, f, rfl, hres⟩

/-- The byte of a fault is the page's in the backing image (R177, R149). -/
theorem memRead_of_fault {image : Memory} {va : Va} {b c : Block} {f : FrameNo}
    (hres : Resolved false image b (vpnOf va) f c) (hf : b.faultsOn (vpnOf va))
    (hw : Memory.wf PM_SIZE b.pm = true) :
    memRead c (physAddr f (offsetOf va)) = image.read (va.toNat % 1048576) := by
  obtain ⟨b', hs, rfl⟩ := fault_of_faultsOn hres hf
  have hwf : Memory.wf PM_SIZE b'.pm = true := by
    rw [Memory.selectFrame_pm hs]
    exact hw
  rw [afterFault_memRead hwf, if_pos rfl, backAddr_vpnOf_offsetOf, backingRead, usedBits_toNat]

/-- Settles O53: the resolved frame of each outcome, and the address and the byte in it. -/
theorem xlateAnswersTheResolvedFrame : Obligations.XlateAnswersTheResolvedFrame := by
  unfold Obligations.XlateAnswersTheResolvedFrame
  intro s t va va' pa d h hx
  obtain ⟨rfl, rfl, f, rfl, hres⟩ := response_of_xlate h hx
  have hpa := physAddr_toNat f (offsetOf va')
  rw [offsetOf_toNat] at hpa
  refine ⟨rfl, Nat.le_of_lt_succ (physAddr f (offsetOf va')).isLt, rfl, f, hpa, fun i hi hlow => ?_,
    fun hm g ho => ?_, fun hf => ⟨fun b g hs => ?_, memRead_of_fault hres hf⟩⟩
  · exact frame_of_lookup hres ((tlbLookup_eq_some_iff ..).2 ⟨i, hi, rfl, hlow⟩)
  · exact (tableHit_of_owns hres hm ho).1
  · obtain ⟨b', hs', -⟩ := fault_of_faultsOn hres hf
    cases hs'.symm.trans hs
    rfl

/-! ### What each outcome writes (R183) -/

/-- On this hardware frame selection is `allocated`, with a victim only where the frames are exhausted
(R141, R145, R146). -/
theorem selectFrame_allocated {b c : Block} {f : FrameNo} (h : selectFrame false b = .ok (c, f)) :
    ∃ victim, c = allocated b victim ∧ (victim ≠ none → b.full = true) := by
  rcases selectFrame_ok h with ⟨-, -, rfl⟩ | ⟨hfull, v, -, rfl, -⟩
  · exact ⟨none, rfl, fun hv => absurd rfl hv⟩
  · exact ⟨some v, rfl, fun _ => hfull⟩

section Frame
variable {image : Memory} {b c : Block} {p : Vpn} {f : FrameNo} (hres : Resolved false image b p f c)
include hres

theorem policy_of_resolved : c.policy = b.policy := by
  cases hres with
  | tlbHit hl => rfl
  | tableHit hm ho => rfl
  | fault b' hf hs => exact (afterFault_policy ..).trans (selectFrame_ts_policy hs).2

/-- Only the slot at TLB_PTR can change (R104, R174). -/
theorem slot_of_ne_tlbPtr {i : TlbIndex} (hi : i ≠ b.tlbPtr) : c.slot i = b.slot i := by
  by_cases hm : b.tlbMisses p
  · rw [Block.slot_congr (hres.insert_of_misses hm).1, Block.setSlot_slot, if_neg hi.symm]
  · rw [hres.eq_of_not_misses hm]
    rfl

/-- Only the page's own timestamp can change, and none under FIFO (R176). -/
theorem ts_of_resolved :
    (b.policy = .fifo → c.ts = b.ts) ∧ ∀ q, q ≠ p → c.stamp q = b.stamp q := by
  by_cases hm : b.tlbMisses p
  · have hts := ts_of_misses hres hm
    refine ⟨fun hfifo => by rw [hts, touchStamp_fifo hfifo], fun q hq => ?_⟩
    rw [Block.stamp_congr hts, touchStamp_stamp, if_neg fun h => hq h.2.symm]
  · rw [hres.eq_of_not_misses hm]
    exact ⟨fun _ => rfl, fun _ _ => rfl⟩

/-- Of the other pages at most the victim's entry changes, in its valid bit, and only with the frames exhausted
(R125, R126). -/
theorem ptEntry_of_ne : ∃ victim, ∀ q, q ≠ p → (c.ptEntry q).frame = (b.ptEntry q).frame ∧
    ((c.ptEntry q).valid ≠ (b.ptEntry q).valid →
      some q = victim ∧ b.full = true ∧ (c.ptEntry q).valid = false) := by
  cases hres with
  | tlbHit hl => exact ⟨none, fun q _ => ⟨rfl, fun hne => absurd rfl hne⟩⟩
  | tableHit hm ho => exact ⟨none, fun q _ => ⟨rfl, fun hne => absurd rfl hne⟩⟩
  | fault b' hf hs =>
    obtain ⟨victim, rfl, hfull⟩ := selectFrame_allocated hs
    refine ⟨victim, fun q hq => ?_⟩
    rw [afterFault_ptEntry, if_neg hq.symm, allocated_ptEntry]
    by_cases hv : some q = victim
    · rw [if_pos hv]
      exact ⟨rfl, fun _ => ⟨hv, hfull (hv ▸ nofun), rfl⟩⟩
    · rw [if_neg hv]
      exact ⟨rfl, fun hne => absurd rfl hne⟩

/-- A fault leaves HITS, and sets FULL only with the cursor at the last frame (R142, R173). -/
theorem hits_full_of_fault (hf : b.faultsOn p) :
    c.hits = b.hits ∧ (c.full ≠ b.full → b.full = false ∧ b.allocPtr = 255) := by
  obtain ⟨b', hs, rfl⟩ := fault_of_faultsOn hres hf
  obtain ⟨victim, rfl, -⟩ := selectFrame_allocated hs
  refine ⟨afterFault_hits .., fun hne => ?_⟩
  rw [afterFault_full, allocated_full] at hne
  simpa [and_comm] using hne

/-- Without a fault the physical memory is left (R174, R183). -/
theorem memRead_of_not_faultsOn (hf : ¬ b.faultsOn p) (pa : PhysAddr) : memRead c pa = memRead b pa := by
  cases hres with
  | tlbHit hl => rfl
  | tableHit hm ho => rfl
  | fault b' hf' hs => exact absurd hf' hf

/-- Outside the frame that selection gives, the physical memory is left (R149, R175). -/
theorem memRead_of_ne_selected (hw : Memory.wf PM_SIZE b.pm = true) {a : Block} {g : FrameNo}
    (hs : selectFrame false (countFault (countRequest b)) = .ok (a, g)) {g' : FrameNo} (hg : g' ≠ g)
    (off : Offset) : memRead c (physAddr g' off) = memRead b (physAddr g' off) := by
  by_cases hf : b.faultsOn p
  · obtain ⟨b', hs', rfl⟩ := fault_of_faultsOn hres hf
    cases hs'.symm.trans hs
    have hpm : a.pm = b.pm := (Memory.selectFrame_pm hs).trans (countFault_pm _)
    rw [afterFault_memRead (hpm ▸ hw), if_neg hg.symm, memRead_congr hpm]
  · exact memRead_of_not_faultsOn hres hf _

end Frame

/-- Settles O33: an ERROR writes at most ERR, and what a TRANSLATE that completes writes is said element by
element above. -/
theorem translateWritesOnlyWhatItsOutcomeSays : Obligations.TranslateWritesOnlyWhatItsOutcomeSays := by
  unfold Obligations.TranslateWritesOnlyWhatItsOutcomeSays
  intro s t va hw h
  refine ⟨?_, fun pa d hx => ?_, ?_⟩
  · cases h
    exact ⟨_, rfl⟩
  · obtain ⟨-, f, hres⟩ := resolved_of_xlate h hx
    exact hres.total_err.2
  · cases h
    rw [State.answer_block]
    rcases translate_response_cases INVALIDATE_ON_UNBIND s.backing va s.block with
      ⟨⟨e, hc⟩, -, -⟩ | ⟨-, f, hres, -⟩
    · rw [hc]
      exact ⟨rfl, fun _ _ => rfl, fun _ => rfl, fun _ _ => rfl, fun _ _ => rfl,
        fun _ _ _ _ hne => absurd rfl hne, fun _ _ hne => absurd rfl hne, fun _ _ => rfl, fun _ _ => rfl,
        fun _ => ⟨rfl, fun hne => absurd rfl hne⟩, fun _ _ => rfl, fun _ _ _ _ _ _ => rfl⟩
    · generalize (translate INVALIDATE_ON_UNBIND s.backing va s.block).1 = c at hres ⊢
      obtain ⟨hfifo, hstamp⟩ := ts_of_resolved hres
      obtain ⟨victim, hentry⟩ := ptEntry_of_ne hres
      refine ⟨policy_of_resolved hres, fun i => slot_of_ne_tlbPtr hres, hfifo, hstamp,
        fun p hp => (hentry p hp).1, fun p q hp hq hpv hqv => ?_, fun p hp hpv => ((hentry p hp).2 hpv).2,
        fun f ho => ?_, fun f ho => ?_, fun ho => ?_, fun ho => ?_, fun a g hs g' off hg => ?_⟩
      · exact Option.some.inj (((hentry p hp).2 hpv).1.trans ((hentry q hq).2 hqv).1.symm)
      · rw [hres.eq_of_not_misses (not_tlbMisses_of_lookup ((outcomeOf_eq_tlbHit_iff ..).1 ho))]
        rfl
      · obtain ⟨hl, howns⟩ := (outcomeOf_eq_tableHit_iff ..).1 ho
        rw [(tableHit_of_owns hres ((tlbLookup_eq_none_iff ..).1 hl) howns).2]
        rfl
      · exact hits_full_of_fault hres ((Memory.faultsOn_iff_outcomeOf ..).2 ho)
      · exact memRead_of_not_faultsOn hres fun hf => ho ((Memory.faultsOn_iff_outcomeOf ..).1 hf)
      · exact memRead_of_ne_selected hres hw hs hg off

end Sys2Proof.Proofs.Pipeline
end

/-! ## Faults and errors (60_exceptions.md) -/

section
namespace Sys2Proof.Proofs.Exceptions

open Config Machine Tlb FrameAllocator Pipeline

/-! ### Raising a block fault (R200, R201) -/

theorem recordFault_ne_none (err : ErrCode) (fault : BlockFault) : recordFault err fault ≠ .none := by
  unfold recordFault
  split
  · cases fault <;> exact nofun
  · assumption

/-- A block fault in a block without one records its code (R201). -/
theorem raiseBlockFault_of_none {b : Block} (he : b.err = .none) (fault : BlockFault) :
    raiseBlockFault fault b = ({ b with err := fault.code }, .error fault.code.bits) := by
  rw [raiseBlockFault, he, recordFault_none]

/-- A later block fault keeps the first, and so leaves the block (R201). -/
theorem raiseBlockFault_of_err {b : Block} (he : b.err ≠ .none) (fault : BlockFault) :
    raiseBlockFault fault b = (b, .error b.err.bits) := by
  rw [raiseBlockFault, recordFault_first he]

/-! ### A request by its command (R206) -/

section serve
variable {inv : Bool} {image : Memory} {w : ReqWord} {b : Block}

theorem serve_of_translate {va : Va} (hd : decode w = .instr (.translate va)) :
    serve inv image w b = translate inv image va b := by
  rw [serve, hd]

theorem serve_of_readStats {x : Operand} (hd : decode w = .instr (.readStats x)) :
    serve inv image w b = readStats b := by
  rw [serve, hd]

theorem serve_of_reserved {c : Command} (hd : decode w = .reserved c) :
    serve inv image w b = raiseBlockFault .reservedCommand b := by
  rw [serve, hd]

end serve

/-- The words with bits 33:32 = 10 or 11 are reserved (R87). -/
theorem decode_reserved {w : ReqWord}
    (hc : w.extractLsb' 32 2 = 0b10#2 ∨ w.extractLsb' 32 2 = 0b11#2) :
    ∃ c, decode w = .reserved c := by
  obtain ⟨-, -, h10, h11⟩ := Encoding.decodeFollowsTheCommandMap w
  rcases hc with hc | hc
  · exact ⟨_, h10 hc⟩
  · exact ⟨_, h11 hc⟩

section translate
variable {inv : Bool} {image : Memory} {va : Va} {b : Block}

/-- TRANSLATE is refused while ERR is set (R202). -/
theorem translate_of_err (he : b.err ≠ .none) : translate inv image va b = (b, .error b.err.bits) :=
  if_pos he

/-- TRANSLATE at the largest value of TOTAL raises COUNTER_OVERFLOW (R204). -/
theorem translate_of_overflow (he : b.err = .none) (hmax : b.total = Count.max) :
    translate inv image va b = raiseBlockFault .counterOverflow b :=
  (if_neg (not_not_intro he)).trans (if_pos hmax)

/-- A fault whose frame selection fails raises what the selection raised (R201, R205). -/
theorem translate_of_selectFrame_error {e : BlockFault} (hb : b.ready) (hf : b.faultsOn (vpnOf va))
    (hs : selectFrame inv (countFault (countRequest b)) = .error e) :
    translate inv image va b = raiseBlockFault e b := by
  have ho : outcomeOf (countRequest b) (vpnOf va) = .pageFault := (Memory.faultsOn_iff_outcomeOf ..).1 hf
  simp only [translate_ready hb, resolve, ho, pageIn, hs]

/-- Everything a TRANSLATE that is neither refused nor stopped by overflow can do (R206): it completes, or it
faults and frame selection fails. -/
theorem translate_ready_cases (inv : Bool) (image : Memory) (va : Va) (hb : b.ready) :
    (∃ f, Resolved inv image b (vpnOf va) f (translate inv image va b).1 ∧
      (translate inv image va b).2 = .xlate va (physAddr f (offsetOf va))
        (memRead (translate inv image va b).1 (physAddr f (offsetOf va)))) ∨
    (∃ e, b.faultsOn (vpnOf va) ∧ selectFrame inv (countFault (countRequest b)) = .error e ∧
      translate inv image va b = raiseBlockFault e b) := by
  rcases translate_cases inv image va b with
    ⟨he, -⟩ | ⟨-, hmax, -⟩ | ⟨-, e, hr, ht⟩ | ⟨-, ⟨c, f⟩, hr, ht⟩
  · exact absurd hb.1 he
  · exact absurd hmax hb.2
  · obtain ⟨ho, hs⟩ := resolve_error hr
    exact .inr ⟨e, (Memory.faultsOn_iff_outcomeOf ..).2 ho, hs, ht⟩
  · rw [ht]
    exact .inl ⟨f, resolved_of_resolve hr, rfl⟩

end translate

/-- The largest value of a counter, written out (R204). -/
theorem countMax_eq : Count.max = 0xFFFFFFFF#32 := by decide

/-- Settles O16: a reserved word is served by raising its fault, whose code is recorded over NONE alone. -/
theorem reservedCommandRaisesItsFault : Obligations.ReservedCommandRaisesItsFault := by
  unfold Obligations.ReservedCommandRaisesItsFault
  intro s w rest hr hi hc
  obtain ⟨c, hd⟩ := decode_reserved hc
  rw [step_request hi hr, serve_of_reserved hd]
  by_cases he : s.block.err = .none
  · rw [raiseBlockFault_of_none he, if_pos he, if_pos he]
    rfl
  · rw [raiseBlockFault_of_err he, if_neg he, if_neg he]
    rfl

/-- Settles O21: the command decides between the three kinds of request, and a TRANSLATE then goes by ERR, by
TOTAL and by frame selection. -/
theorem priorityWithinOneRequest : Obligations.PriorityWithinOneRequest := by
  unfold Obligations.PriorityWithinOneRequest
  intro s w rest hr hi
  obtain ⟨h00, h01, -, -⟩ := Encoding.decodeFollowsTheCommandMap w
  refine ⟨_, _, step_request hi hr, rfl, fun hc => ?_, fun hc => ?_, fun hc he => ?_, fun hc he ht => ?_,
    fun hc he ht => ?_⟩ <;> rw [State.answer_block]
  · obtain ⟨c, hd⟩ := decode_reserved hc
    rw [serve_of_reserved hd]
    exact ⟨rfl, rfl⟩
  · rw [serve_of_readStats (h01 hc)]
    exact ⟨rfl, rfl⟩
  · rw [serve_of_translate (h00 hc), translate_of_err he]
    exact ⟨rfl, rfl⟩
  · rw [serve_of_translate (h00 hc), translate_of_overflow he (ht.trans countMax_eq.symm),
      raiseBlockFault_of_none he]
    exact ⟨rfl, rfl⟩
  · rw [serve_of_translate (h00 hc)]
    have hb : s.block.ready := ⟨he, countMax_eq ▸ ht⟩
    rcases translate_ready_cases INVALIDATE_ON_UNBIND s.backing (w.extractLsb' 0 32) hb with
      ⟨f, hres, hx⟩ | ⟨e, hf, hs, ht⟩
    · exact .inl ⟨hres.total_err.2.trans he, _, _, hx⟩
    · obtain ⟨rfl, hfull, -⟩ := (selectFrame_eq_error_iff ..).1 hs
      rw [ht, raiseBlockFault_of_none he]
      exact .inr ⟨hfull, hf, rfl, rfl⟩

/-! ### Precise faults (R201) -/

/-- What a request answers while ERR is set: ERROR, or the statistics (R202). -/
def FaultedResponse (b : Block) (r : Response) : Prop :=
  r = .error b.err.bits ∨ r = .stats b.total b.faults b.hits b.err.bits

section serve
variable {inv : Bool} {image : Memory} {w : ReqWord} {b : Block}

/-- Every ERROR is the answer of a block fault raised on the block as it was when the request began; a refusal
is too, since a set ERR keeps the first fault (R201, R202). -/
theorem raise_of_serve_error {e : ErrBits} (h : (serve inv image w b).2 = .error e) :
    ∃ fault, serve inv image w b = raiseBlockFault fault b := by
  rcases hd : decode w with (va | x) | c
  · rw [serve_of_translate hd] at h ⊢
    rcases translate_cases inv image va b with ⟨he, ht⟩ | ⟨-, -, ht⟩ | ⟨-, fault, -, ht⟩ | ⟨-, r, -, ht⟩
    · exact ⟨.reservedCommand, ht.trans (raiseBlockFault_of_err he _).symm⟩
    · exact ⟨_, ht⟩
    · exact ⟨_, ht⟩
    · rw [ht] at h
      cases h
  · rw [serve_of_readStats hd] at h
    cases h
  · exact ⟨_, serve_of_reserved hd⟩

/-- While ERR is set a request leaves the block (R202). -/
theorem serve_of_err (inv : Bool) (image : Memory) (w : ReqWord) (he : b.err ≠ .none) :
    (serve inv image w b).1 = b ∧ FaultedResponse b (serve inv image w b).2 := by
  rcases hd : decode w with (va | x) | c
  · rw [serve_of_translate hd, translate_of_err he]
    exact ⟨rfl, .inl rfl⟩
  · rw [serve_of_readStats hd]
    exact ⟨rfl, .inr rfl⟩
  · rw [serve_of_reserved hd, raiseBlockFault_of_err he]
    exact ⟨rfl, .inl rfl⟩

end serve

/-- Settles O17: an ERROR comes of a block fault alone, which writes only ERR; and while ERR is set no request
changes the block. -/
theorem blockFaultsArePrecise : Obligations.BlockFaultsArePrecise := by
  unfold Obligations.BlockFaultsArePrecise
  refine ⟨⟨rfl, rfl, rfl, rfl⟩, fun _ _ => rfl, fun s t w rest e hr hi hstep hx => ?_,
    fun s t hstep he hm => ?_⟩
  · cases (step_request hi hr).symm.trans hstep
    have hresp : (serve INVALIDATE_ON_UNBIND s.backing w s.block).2 = .error e := by simpa using hx
    obtain ⟨fault, hf⟩ := raise_of_serve_error hresp
    rw [hf] at hresp
    rw [State.answer_block, hf]
    cases hresp
    exact ⟨rfl, recordFault_ne_none _ fault, rfl, fun he => recordFault_first he fault⟩
  · by_contra hne
    obtain ⟨w, rest, -, ht⟩ := Memory.step_changed_block hstep hm fun hb => hne (by rw [hb])
    exact hne (by rw [ht, (serve_of_err _ _ w he).1])

/-! ### Moves that are no request (R217, R233) -/

theorem step_idle {s : State} (hi : s.inbox = []) : step s = .next s := by
  simp only [step, fetch, hi]

theorem step_drivePolicy {s : State} {level : BitVec 1} {rest : List HostMove}
    (hi : s.inbox = .drivePolicy level :: rest) :
    step s = .next { s with inbox := rest, policyInput := level } := by
  simp only [step, fetch, hi]

/-- Settles O11, by the next move: there is none, or it is a level of the policy input. -/
theorem idleBlockHoldsItsState : Obligations.IdleBlockHoldsItsState := by
  unfold Obligations.IdleBlockHoldsItsState
  refine ⟨fun s => step_idle, fun s t hm hstep => ?_⟩
  cases hi : s.inbox with
  | nil =>
    cases (step_idle hi).symm.trans hstep
    exact ⟨rfl, rfl⟩
  | cons m rest =>
    obtain ⟨level, rfl⟩ := hm m (by rw [hi]; rfl)
    cases (step_drivePolicy hi).symm.trans hstep
    exact ⟨rfl, rfl⟩

/-! ### The faulted block until reset (R202) -/

/-- State `t` follows `s` with the block left, and with these responses of a faulted block besides. -/
def FaultedTo (s t : State) : Prop :=
  t.block = s.block ∧ ∃ out, t.outbox = s.outbox ++ out ∧ ∀ r ∈ out, FaultedResponse s.block r

theorem FaultedTo.refl (s : State) : FaultedTo s s :=
  ⟨rfl, [], (List.append_nil _).symm, fun _ hr => absurd hr List.not_mem_nil⟩

theorem FaultedTo.trans {s t u : State} (h : FaultedTo s t) (h' : FaultedTo t u) : FaultedTo s u := by
  obtain ⟨hb, out, ho, hr⟩ := h
  obtain ⟨hb', out', ho', hr'⟩ := h'
  rw [hb] at hr'
  refine ⟨hb'.trans hb, out ++ out', by rw [ho', ho, List.append_assoc], fun r hmem => ?_⟩
  exact (List.mem_append.1 hmem).elim (hr r) (hr' r)

/-- While ERR is set a step that is no reset leaves the block and answers as a faulted block does (R202). -/
theorem step_faulted {s : State} (hr : s.wasReset = true) (he : s.block.err ≠ .none)
    (hm : ∀ m, s.inbox.head? = some m → m.isReset = false) : ∃ t, step s = .next t ∧ FaultedTo s t := by
  cases hi : s.inbox with
  | nil => exact ⟨s, step_idle hi, .refl s⟩
  | cons m rest =>
    have hn : m.isReset = false := hm m (by rw [hi]; rfl)
    cases m with
    | request w =>
      obtain ⟨hb, hresp⟩ := serve_of_err INVALIDATE_ON_UNBIND s.backing w he
      exact ⟨_, step_request hi hr, hb, _, rfl, fun r hmem => List.mem_singleton.1 hmem ▸ hresp⟩
    | drivePolicy level => exact ⟨_, step_drivePolicy hi, .refl s⟩
    | reset => cases hn
    | resetWithImage image => cases hn
    | resetDuring w => cases hn

/-- The moves that a run takes after its first step are among those of the whole run. -/
theorem mem_take_succ_of_step {s t : State} {n : Nat} {m : HostMove} (h : step s = .next t)
    (hm : m ∈ t.inbox.take n) : m ∈ s.inbox.take (n + 1) := by
  rw [Memory.step_inbox h] at hm
  cases hi : s.inbox with
  | nil => simp [hi] at hm
  | cons a l => exact List.mem_cons_of_mem _ (by simpa [hi] using hm)

/-- While ERR is set a run without a reset leaves the block, by induction on its steps (R202). -/
theorem run_faulted (n : Nat) {s : State} (hr : s.wasReset = true) (he : s.block.err ≠ .none)
    (hm : ∀ m ∈ s.inbox.take n, m.isReset = false) : ∃ t, run n s = .next t ∧ FaultedTo s t := by
  induction n generalizing s with
  | zero => exact ⟨s, rfl, .refl s⟩
  | succ n ih =>
    have hhead : ∀ m, s.inbox.head? = some m → m.isReset = false := fun m hmem =>
      hm m (List.mem_of_mem_head? (by simpa [List.head?_take] using hmem))
    obtain ⟨u, hstep, hu⟩ := step_faulted hr he hhead
    obtain ⟨t, hrun, ht⟩ := ih (step_wasReset hr hstep) (hu.1 ▸ he)
      fun m hmem => hm m (mem_take_succ_of_step hstep hmem)
    exact ⟨t, (run_succ_of_next hstep n).trans hrun, hu.trans ht⟩

/-- Settles O18: the three kinds of request while ERR is set, and the runs by `run_faulted`. -/
theorem faultedBlockRefusesUntilReset : Obligations.FaultedBlockRefusesUntilReset := by
  unfold Obligations.FaultedBlockRefusesUntilReset
  refine ⟨fun s va he => ?_, fun _ _ _ => rfl, fun s w rest c hr he hi hd => ?_, fun n s hr he hm => ?_⟩
  · rw [exec_translate, translate_of_err he]
    rfl
  · rw [step_request hi hr, serve_of_reserved hd, raiseBlockFault_of_err he]
    rfl
  · obtain ⟨t, hrun, hb, out, ho, hresp⟩ := run_faulted n hr he hm
    exact ⟨t, out, hrun, hb, ho, hresp⟩

/-! ### Counter overflow (R204) -/

/-- Settles O19: TOTAL counts the XLATE responses since the reset, and is a 32-bit number. -/
theorem counterOverflowStopsTranslate : Obligations.CounterOverflowStopsTranslate := by
  unfold Obligations.CounterOverflowStopsTranslate
  refine ⟨fun s va he ht => ?_, fun image p ws => ?_⟩
  · rw [exec_translate, translate_of_overflow he (ht.trans countMax_eq.symm), raiseBlockFault_of_none he]
    rfl
  · have htotal := serveAll_total INVALIDATE_ON_UNBIND image ws (Block.reset p)
    have hlt : (serveAll INVALIDATE_ON_UNBIND image ws (Block.reset p)).1.total.toNat < 4294967296 :=
      BitVec.isLt _
    omega

/-! ### An eviction without a victim (R205) -/

/-- Settles O20: frame selection fails exactly without a victim, and the invariants of every reachable state
exclude the fault. -/
theorem noFrameOwnerIsUnreachable : Obligations.NoFrameOwnerIsUnreachable := by
  unfold Obligations.NoFrameOwnerIsUnreachable
  refine ⟨fun s va hb hf hfull hnone => ?_, fun s hs => (reachable_block_inv hs).owned⟩
  have hs : selectFrame INVALIDATE_ON_UNBIND (countFault (countRequest s.block)) = .error .noFrameOwner :=
    (selectFrame_eq_error_iff ..).2
      ⟨rfl, hfull, hnone.imp_left fun ⟨hp, hn⟩ => ⟨hp, fun ⟨p, ho⟩ => hn p ho⟩⟩
  rw [exec_translate, translate_of_selectFrame_error hb hf hs, raiseBlockFault_of_none hb.1]
  rfl

/-! ### A TRANSLATE completes (R207) -/

/-- Settles O28: under the invariants frame selection does not fail, and the resolved frame is bound. -/
theorem translateCompletes : Obligations.TranslateCompletes := by
  unfold Obligations.TranslateCompletes
  intro s va hinv hr hb
  obtain ⟨h, -⟩ := hinv.2 hr
  rcases translate_ready_cases INVALIDATE_ON_UNBIND s.backing va hb with ⟨f, hres, hx⟩ | ⟨e, -, hs, -⟩
  · refine ⟨_, f, _, exec_translate va s, hres.total_err.2.trans hb.1, bound_of_resolved hres h, ?_, rfl⟩
    exact congrArg (s.outbox ++ [·]) hx
  · exact absurd hs (selectFrame_ne_error_of_inv h e)

end Sys2Proof.Proofs.Exceptions
end

/-! ## Reset and hazards (70_reset_and_hazards.md) -/

section
namespace Sys2Proof.Proofs.Reset

open Config Machine Tlb FrameAllocator Pipeline Exceptions

/-! ### What a move that asserts reset does (R230 to R232) -/

/-- A reset between requests (R230). -/
theorem step_reset {s : State} {rest : List HostMove} (hi : s.inbox = .reset :: rest) :
    step s = .next (State.resetBlock { s with inbox := rest }) := by
  simp only [step, fetch, hi]

/-- A reset during a request is a reset, and the request is discarded (R232). -/
theorem step_resetDuring {s : State} {w : ReqWord} {rest : List HostMove}
    (hi : s.inbox = .resetDuring w :: rest) (hr : s.wasReset = true) :
    step s = .next (State.resetBlock { s with inbox := rest }) := by
  simp only [step, fetch, hi, hr, if_true]

/-- Before the first reset there is no request for a reset to cut off (R234). -/
theorem step_resetDuring_beforeReset {s : State} {w : ReqWord} {rest : List HostMove}
    (hi : s.inbox = .resetDuring w :: rest) (hr : s.wasReset = false) :
    step s = .refused .beforeReset := by
  simp [step, fetch, hi, hr]

/-- Whatever move asserts reset, the step is a reset, with the image bound so far or with another. -/
theorem step_of_isReset {s t : State} {m : HostMove} {rest : List HostMove} (hi : s.inbox = m :: rest)
    (hm : m.isReset = true) (h : step s = .next t) :
    ∃ image, t = State.resetBlock { s with inbox := rest, backing := image } := by
  rcases step_cases h with ⟨hi', -⟩ | ⟨level, rest', hi', -⟩ | ⟨rest', hi', ht⟩ | ⟨image, rest', hi', -, ht⟩ |
    ⟨w, rest', hi', -, ht⟩ | ⟨w, rest', hi', -, -⟩ <;> cases hi.symm.trans hi'
  · cases hm
  · exact ⟨s.backing, ht⟩
  · exact ⟨image, ht⟩
  · exact ⟨s.backing, ht⟩
  · cases hm

/-! ### What only a reset clears (R230) -/

/-- Block `c` has what only a reset clears or changes as block `b` has it: POLICY, a set ERR, a set FULL, and
the valid bit of a valid slot. -/
structure KeptUntilReset (b c : Block) : Prop where
  policy : c.policy = b.policy
  err : b.err ≠ .none → c.err = b.err
  full : b.full = true → c.full = true
  valid : ∀ i, (b.slot i).valid = true → (c.slot i).valid = true

theorem KeptUntilReset.refl (b : Block) : KeptUntilReset b b := ⟨rfl, fun _ => rfl, id, fun _ => id⟩

section Resolved
variable {image : Memory} {b c : Block} {p : Vpn} {f : FrameNo} (hres : Resolved false image b p f c)
include hres

/-- A TRANSLATE that completes never clears FULL (R142). -/
theorem full_of_resolved (hfull : b.full = true) : c.full = true := by
  cases hres with
  | tlbHit hl => exact hfull
  | tableHit hm ho => exact hfull
  | fault b' hf hs =>
    by_contra hne
    have hclear := (hits_full_of_fault (.fault b' hf hs) hf).2 fun he => hne (he.trans hfull)
    exact Bool.noConfusion (hfull.symm.trans hclear.1)

/-- A TRANSLATE that completes never empties a slot, since an insert writes a valid one (R104). -/
theorem slot_valid_of_resolved {i : TlbIndex} (hv : (b.slot i).valid = true) : (c.slot i).valid = true := by
  by_cases hm : b.tlbMisses p
  · rw [Block.slot_congr (hres.insert_of_misses hm).1, Block.setSlot_slot]
    split
    · rfl
    · exact hv
  · rw [hres.eq_of_not_misses hm]
    exact hv

end Resolved

/-- No request does what only a reset does: not a block fault, which writes ERR over NONE alone, and not a
TRANSLATE that completes. -/
theorem keptUntilReset_serve (image : Memory) (w : ReqWord) (b : Block) :
    KeptUntilReset b (serve INVALIDATE_ON_UNBIND image w b).1 := by
  rcases serve_block_cases INVALIDATE_ON_UNBIND image w b with hc | ⟨fault, -, hc⟩ | ⟨-, p, f, hres⟩
  · rw [hc]
    exact .refl b
  · rw [hc]
    exact ⟨rfl, fun he => recordFault_first he fault, id, fun _ => id⟩
  · exact ⟨policy_of_resolved hres, fun _ => hres.total_err.2, full_of_resolved hres,
      fun _ => slot_valid_of_resolved hres⟩

/-- A step that is no reset does not do what only a reset does. -/
theorem keptUntilReset_step {s t : State} (h : step s = .next t)
    (hm : ∀ m, s.inbox.head? = some m → m.isReset = false) : KeptUntilReset s.block t.block := by
  by_cases hb : t.block = s.block
  · rw [hb]
    exact .refl _
  · obtain ⟨w, rest, -, ht⟩ := Memory.step_changed_block h hm hb
    rw [ht]
    exact keptUntilReset_serve ..

/-- The policy input selects FIFO at level 0 alone (R21). -/
theorem ofInput_eq_fifo_iff (level : BitVec 1) : Policy.ofInput level = .fifo ↔ level = 0 := by
  revert level
  decide

/-- The policy input selects LRU at level 1 alone (R21). -/
theorem ofInput_eq_lru_iff (level : BitVec 1) : Policy.ofInput level = .lru ↔ level = 1 := by
  revert level
  decide

/-- Settles O7: the step on a reset is `step_reset`, whose block is the reset block; and of the other moves only a
request changes the block, as `keptUntilReset_serve` says. -/
theorem resetLoadsEveryElementAndAloneClears : Obligations.ResetLoadsEveryElementAndAloneClears := by
  unfold Obligations.ResetLoadsEveryElementAndAloneClears
  refine ⟨fun s rest hi => ⟨_, step_reset hi, ?_⟩, fun s t hstep hm => ?_⟩
  · exact ⟨ofInput_eq_fifo_iff _, ofInput_eq_lru_iff _, Block.reset_slot _, rfl, Block.reset_ptEntry _,
      Block.reset_stamp _, rfl, rfl, fun _ => rfl, rfl, rfl, rfl, rfl, rfl⟩
  · obtain ⟨hpolicy, herr, hfull, hvalid⟩ := keptUntilReset_step hstep hm
    exact ⟨hpolicy, herr, hfull, hvalid⟩

/-! ### The policy input (R231) -/

/-- Between resets the block ignores the policy input (R231). -/
theorem step_withPolicyInput {s t : State} (level : BitVec 1)
    (hm : ∀ m, s.inbox.head? = some m → m.isReset = false ∧ ∀ l, m ≠ .drivePolicy l)
    (h : step s = .next t) : step { s with policyInput := level } = .next { t with policyInput := level } := by
  have hhead {m : HostMove} {rest : List HostMove} (hi : s.inbox = m :: rest) :
      m.isReset = false ∧ ∀ l, m ≠ .drivePolicy l := hm m (by rw [hi]; rfl)
  rcases step_cases h with ⟨hi, rfl⟩ | ⟨l, rest, hi, -⟩ | ⟨rest, hi, -⟩ | ⟨image, rest, hi, -⟩ |
    ⟨w, rest, hi, -⟩ | ⟨w, rest, hi, hr, rfl⟩
  · exact step_idle hi
  · exact absurd rfl ((hhead hi).2 l)
  · cases (hhead hi).1
  · cases (hhead hi).1
  · cases (hhead hi).1
  · exact step_request hi hr

/-- Settles O8: a move that asserts reset is a reset, which samples the input; every other step but a change of the
input commutes with changing it. -/
theorem policyInputIsSampledAtResetOnly : Obligations.PolicyInputIsSampledAtResetOnly := by
  unfold Obligations.PolicyInputIsSampledAtResetOnly
  refine ⟨fun s rest hi => ⟨_, step_reset hi, rfl⟩, fun s t m rest hi hm hstep => ?_,
    fun s level rest hi => step_drivePolicy hi, fun s t level => step_withPolicyInput level⟩
  obtain ⟨image, rfl⟩ := step_of_isReset hi hm hstep
  exact ⟨rfl, rfl⟩

/-! ### A reset during a request, and a request before the first reset (R232, R234) -/

/-- Settles O9: both steps are the reset of the state with the move taken. -/
theorem resetDuringARequestDiscardsIt : Obligations.ResetDuringARequestDiscardsIt := by
  unfold Obligations.ResetDuringARequestDiscardsIt
  exact fun s w rest hr hi => ⟨_, step_resetDuring hi hr, step_reset rfl, rfl, rfl⟩

/-- Before the first reset only a reset between requests, with or without another image, makes the machine
accept requests (R234). -/
theorem inbox_of_first_reset {s t : State} (hr : s.wasReset = false) (h : step s = .next t)
    (ht : t.wasReset = true) :
    ∃ rest, s.inbox = .reset :: rest ∨ ∃ image, s.inbox = .resetWithImage image :: rest := by
  rcases step_cases h with ⟨-, rfl⟩ | ⟨level, rest, -, rfl⟩ | ⟨rest, hi, -⟩ | ⟨image, rest, hi, -, -⟩ |
    ⟨w, rest, -, hr', -⟩ | ⟨w, rest, -, hr', -⟩
  · exact Bool.noConfusion (hr.symm.trans ht)
  · exact Bool.noConfusion (hr.symm.trans ht)
  · exact ⟨rest, .inl hi⟩
  · exact ⟨rest, .inr ⟨image, hi⟩⟩
  · exact Bool.noConfusion (hr.symm.trans hr')
  · exact Bool.noConfusion (hr.symm.trans hr')

/-- Before the first reset, a step on a move that asserts reset does not read the block (R37, R234). -/
theorem step_withBlock_of_isReset {s : State} (b : Block) {m : HostMove} {rest : List HostMove}
    (hr : s.wasReset = false) (hi : s.inbox = m :: rest) (hm : m.isReset = true) :
    step { s with block := b } = step s := by
  cases m with
  | reset => rw [step_reset hi, step_reset (s := { s with block := b }) hi]; rfl
  | resetWithImage image =>
    cases hw : Memory.wf VA_SPACE image with
    | true => rw [step_resetWithImage hi hw, step_resetWithImage (s := { s with block := b }) hi hw]; rfl
    | false => rw [step_badImage hi hw, step_badImage (s := { s with block := b }) hi hw]
  | resetDuring w =>
    rw [step_resetDuring_beforeReset hi hr, step_resetDuring_beforeReset (s := { s with block := b }) hi hr]
  | request w => cases hm
  | drivePolicy level => cases hm

/-- Settles O10, from what each move does before the first reset. -/
theorem requestBeforeTheFirstResetIsRefused : Obligations.RequestBeforeTheFirstResetIsRefused := by
  unfold Obligations.RequestBeforeTheFirstResetIsRefused
  exact ⟨fun s w rest hr hi => step_beforeReset hi hr, fun s t => inbox_of_first_reset,
    fun s b m rest => step_withBlock_of_isReset b⟩

/-! ### The state right after a reset (R230, R237) -/

/-- The state right after a reset is its own reset. -/
theorem resetBlock_boot (input : BitVec 1) (image : Memory) :
    (State.boot input image).resetBlock = State.boot input image := rfl

/-- The state right after a reset meets the invariants, with any image of 2^20 bytes. -/
theorem inv_boot (input : BitVec 1) {image : Memory} (hw : Memory.wf VA_SPACE image = true) :
    (State.boot input image).Inv := by
  rw [← resetBlock_boot]
  exact inv_resetBlock hw

/-- Settles O47, by `inv_boot`; `State.reset` is the case of the input and the image that the model chose. -/
theorem resetMeetsTheInvariants : Obligations.ResetMeetsTheInvariants := by
  unfold Obligations.ResetMeetsTheInvariants
  exact ⟨fun input image => inv_boot input, inv_boot RESET_POLICY_INPUT rfl⟩

/-- Settles O54, by what a reset that binds an image does, and the refusal of a list that is no image. -/
theorem resetWithImageBeginsARunOnIt : Obligations.ResetWithImageBeginsARunOnIt := by
  unfold Obligations.ResetWithImageBeginsARunOnIt
  exact ⟨fun s image rest hi hw => ⟨_, step_resetWithImage hi hw, step_reset rfl, rfl⟩,
    fun s image rest => step_badImage⟩

/-! ### The run of a trace (R235) -/

/-- The request words of a trace's lines: one TRANSLATE for each, in order (R90, R235). -/
def lineWords (trace : List Int) : List ReqWord := trace.map fun n => (TraceLine.bare n).word

/-- The request words of a trace: those of its lines, and one READ_STATS (R235). -/
def traceWords (trace : List Int) : List ReqWord := lineWords trace ++ [TraceLine.readStats.word]

theorem length_traceWords (trace : List Int) : (traceWords trace).length = trace.length + 1 := by
  simp [traceWords, lineWords]

/-- The host's moves for a trace are a reset and the trace's request words (R235). -/
theorem traceMoves_eq (trace : List Int) :
    traceMoves trace = .reset :: (traceWords trace).map .request := by
  simp [traceMoves, traceWords, lineWords]

/-- The run of a trace is a reset, and the fold of the trace's requests from the reset block (R61, R235). -/
theorem run_traceMoves {s : State} {trace : List Int} (hi : s.inbox = traceMoves trace) : ∃ t,
    run (trace.length + 2) s = .next t ∧
      t.outbox = s.outbox ++ (serveAll INVALIDATE_ON_UNBIND s.backing (traceWords trace)
        (Block.reset (Policy.ofInput s.policyInput))).2 := by
  rw [traceMoves_eq] at hi
  have hrun := Memory.runIsTheFoldOfItsRequests (traceWords trace)
    (State.resetBlock { s with inbox := (traceWords trace).map .request }) [] rfl (List.append_nil _).symm
  rw [length_traceWords] at hrun
  exact ⟨_, (run_succ_of_next (step_reset hi) _).trans hrun, rfl⟩

/-- The word of a request decodes to it (R86). -/
theorem decode_encode (i : Instr) : decode (encode i) = .instr i :=
  (decode_eq_instr_iff ..).2 ⟨commandField_encode i, operandField_encode i⟩

section serve
variable {inv : Bool} {image : Memory}

/-- Serving one sequence of requests after another. -/
theorem serveAll_append (vs ws : List ReqWord) (b : Block) :
    serveAll inv image (vs ++ ws) b =
      ((serveAll inv image ws (serveAll inv image vs b).1).1,
        (serveAll inv image vs b).2 ++ (serveAll inv image ws (serveAll inv image vs b).1).2) := by
  induction vs generalizing b with
  | nil => rfl
  | cons v vs ih => simp only [List.cons_append, serveAll, ih]

/-- The last request of a trace answers the statistics (R180, R235). -/
theorem serve_finalWord (b : Block) : serve inv image TraceLine.readStats.word b = readStats b :=
  serve_of_readStats (decode_encode (.readStats 0))

/-- Under the invariants a line of a trace that is neither refused nor stopped by overflow is counted, leaves
ERR, and is answered with an XLATE that echoes its integer (R172, R177, R207). -/
theorem serve_line {b : Block} (h : b.Inv image) (hb : b.ready) (n : Int) :
    (serve inv image (TraceLine.bare n).word b).1.err = .none ∧
      (serve inv image (TraceLine.bare n).word b).1.total.toNat = b.total.toNat + 1 ∧
      (serve inv image (TraceLine.bare n).word b).2.va? = some (BitVec.ofInt 32 n) := by
  have hd : decode (TraceLine.bare n).word = .instr (.translate (BitVec.ofInt 32 n)) := decode_encode _
  rw [serve_of_translate hd]
  rcases translate_ready_cases inv image (BitVec.ofInt 32 n) hb with ⟨f, hres, hx⟩ | ⟨e, -, hs, -⟩
  · obtain ⟨htotal, herr⟩ := hres.total_err
    exact ⟨herr.trans hb.1, by rw [htotal, ordinalOf_toNat hb.2], by rw [hx]; rfl⟩
  · exact absurd hs (selectFrame_ne_error_of_inv h e)

/-- While TOTAL has room for them, the lines of a trace are all counted, and answered in order with an XLATE that
echoes the line's integer; by induction on the lines. -/
theorem serveAll_lineWords (trace : List Int) {b : Block} (h : b.Inv image) (he : b.err = .none)
    (hlt : b.total.toNat + trace.length < 2 ^ 32) :
    (serveAll inv image (lineWords trace) b).1.err = .none ∧
      (serveAll inv image (lineWords trace) b).1.total.toNat = b.total.toNat + trace.length ∧
      (serveAll inv image (lineWords trace) b).2.map Response.va? =
        trace.map fun n => some (BitVec.ofInt 32 n) := by
  induction trace generalizing b with
  | nil => exact ⟨he, rfl, rfl⟩
  | cons n trace ih =>
    rw [List.length_cons] at hlt ⊢
    have hmax : b.total ≠ Count.max := by
      intro hm
      have hval : Count.max.toNat = 2 ^ 32 - 1 := by decide
      rw [hm, hval] at hlt
      omega
    obtain ⟨herr, htotal, hva⟩ := serve_line (inv := inv) h ⟨he, hmax⟩ n
    obtain ⟨herrs, htotals, hvas⟩ := ih (inv_serve (inv := inv) h _) herr (by omega)
    exact ⟨herrs, htotals.trans (by omega), congrArg₂ List.cons hva hvas⟩

/-- The responses to a trace of fewer than 2^32 lines after a reset: those of its lines, and a STATS that counts
them (R172, R181, R235). -/
theorem serveAll_traceWords (p : Policy) {trace : List Int} (hlen : trace.length < 2 ^ 32) :
    ∃ xlates faults hits,
      (serveAll inv image (traceWords trace) (Block.reset p)).2 =
        xlates ++ [.stats (BitVec.ofNat 32 trace.length) faults hits 0] ∧
      xlates.map Response.va? = trace.map (fun n => some (BitVec.ofInt 32 n)) ∧
      faults.toNat + hits.toNat ≤ trace.length := by
  have hreset := Block.inv_reset image p
  obtain ⟨herr, htotal, hvas⟩ := serveAll_lineWords (inv := inv) trace hreset rfl (by simpa using hlen)
  have hinv := serveAll_keeps (P := Block.Inv image) (fun w _ h => inv_serve (inv := inv) h w)
    (lineWords trace) hreset
  replace htotal := htotal.trans (Nat.zero_add _)
  rw [traceWords, serveAll_append]
  generalize serveAll inv image (lineWords trace) (Block.reset p) = r at herr htotal hvas hinv ⊢
  refine ⟨r.2, r.1.faults, r.1.hits, congrArg (r.2 ++ [·]) ?_, hvas, ?_⟩
  · rw [serve_finalWord, readStats, herr, ← htotal, BitVec.ofNat_toNat, BitVec.setWidth_eq]
    rfl
  · rw [← htotal, Nat.add_comm]
    exact hinv.counters

end serve

/-! ### The end-of-run observation (R235) -/

/-- Only an XLATE echoes an operand (R88). -/
theorem isXlate_eq_isSome_va? (r : Response) : r.isXlate = r.va?.isSome := by
  cases r <;> rfl

/-- All responses that echo an operand are XLATE responses (R88). -/
theorem isXlate_of_map_va? {xs : List Response} {vas : List Va} (h : xs.map Response.va? = vas.map some) :
    ∀ x ∈ xs, x.isXlate = true := by
  intro x hx
  have hmem : x.va? ∈ vas.map some := h ▸ List.mem_map_of_mem hx
  obtain ⟨va, -, hva⟩ := List.mem_map.1 hmem
  rw [isXlate_eq_isSome_va?, ← hva, Option.isSome_some]

/-- The end-of-run observation of XLATE responses followed by a STATS (R235). -/
theorem endOfRun_concat {xs : List Response} (hxs : ∀ x ∈ xs, x.isXlate = true) (total faults hits : Count)
    (err : ErrBits) :
    endOfRun (xs ++ [.stats total faults hits err]) = (xs, some (.stats total faults hits err)) := by
  simp [endOfRun, List.filter_append, List.filter_eq_self.2 hxs, Response.isXlate, Response.isStats]

/-- Settles O46: the run is the fold of the trace's requests from the reset block, whose responses are those of
`serveAll_traceWords`. -/
theorem endOfRunObservationOfATrace : Obligations.EndOfRunObservationOfATrace := by
  unfold Obligations.EndOfRunObservationOfATrace
  rintro s trace - hout hi hlen
  obtain ⟨t, hrun, ht⟩ := run_traceMoves hi
  obtain ⟨xlates, faults, hits, hresp, hvas, hcount⟩ :=
    serveAll_traceWords (Policy.ofInput s.policyInput) hlen
  have hxs : ∀ x ∈ xlates, x.isXlate = true := isXlate_of_map_va? (hvas.trans (List.map_map ..).symm)
  rw [hout, List.nil_append, hresp] at ht
  exact ⟨t, xlates, faults, hits, hrun, by rw [ht, endOfRun_concat hxs], hvas, hcount⟩

end Sys2Proof.Proofs.Reset
end

/-! ## Encoding: requests and their words (30_encoding.md) -/

section
namespace Sys2Proof.Proofs.EncodingRoundTrip

/-! ### Decode and encode are inverse (R81 to R83, R86) -/

/-- The request that the decoder reads from a word is the one that encodes to it: both sides say that the word's
two fields are the request's command and operand (R81). -/
theorem decode_eq_instr_iff_encode_eq (w : ReqWord) (i : Instr) : decode w = .instr i ↔ encode i = w := by
  constructor
  · intro h
    obtain ⟨hcommand, hoperand⟩ := (decode_eq_instr_iff w i).1 h
    rw [encode, ← hcommand, ← hoperand, append_fields]
  · rintro rfl
    exact Reset.decode_encode i

/-- The decoder reads a request from a word or finds its command reserved, and never both (R86). -/
theorem exists_reserved_iff (w : ReqWord) :
    (∃ c, decode w = .reserved c) ↔ ∀ i : Instr, decode w ≠ .instr i := by
  cases decode w with
  | instr i => exact ⟨nofun, fun h => absurd rfl (h i)⟩
  | reserved c => exact ⟨fun _ => nofun, fun _ => ⟨c, rfl⟩⟩

/-- Settles O2: decoding to a request is being its word, and the reserved words are those that decode to no
request. -/
theorem decodeAndEncodeAgree : Obligations.DecodeAndEncodeAgree := by
  unfold Obligations.DecodeAndEncodeAgree
  refine ⟨fun i _ => Reset.decode_encode i, fun w i => (decode_eq_instr_iff_encode_eq w i).1, fun w => ?_⟩
  exact (exists_reserved_iff w).trans (forall_congr' fun i => not_congr (decode_eq_instr_iff_encode_eq w i))

/-! ### The written-out words (95_test_vectors.md, R90) -/

/-- Settles O3: a word of a request decodes to it because the request encodes to it, a reserved word by its command
field, and the word of a trace line is computed. -/
theorem writtenOutWordsDecode : Obligations.WrittenOutWordsDecode := by
  unfold Obligations.WrittenOutWordsDecode
  refine ⟨?_, ?_, ?_, ?_, ?_, ?_, ?_, ?_, ?_⟩
  · exact (decode_eq_instr_iff_encode_eq ..).2 (by decide)
  · exact (decode_eq_instr_iff_encode_eq ..).2 (by decide)
  · exact (decode_eq_instr_iff_encode_eq ..).2 (by decide)
  · exact (decode_eq_instr_iff_encode_eq ..).2 (by decide)
  · exact (decode_eq_reserved_iff ..).2 (by decide)
  · exact (decode_eq_reserved_iff ..).2 (by decide)
  · decide
  · decide
  · decide

end Sys2Proof.Proofs.EncodingRoundTrip
end
